-- ==== Sys2Proof/Word.lean ====
section
/-! DEFINITION. The widths of arithmetic_range_decoder (spec/00_scope.md rules R8 to R10): every value is an
unsigned number, bit 0 the least significant. -/

namespace Sys2Proof

/-- A byte of the compressed stream (rule R31). -/
abbrev Byte := BitVec 8

/-- `u32`: RANGE, CODE, RESULT and every intermediate of the decode arithmetic (rule R8, `W`). -/
abbrev Word := BitVec 32

/-- `u16`: the storage of one Probability Table entry (rule R8, `PW`). -/
abbrev Entry := BitVec 16

/-- A command word (rule R44, `CMD_W`). -/
abbrev CmdWord := BitVec 40

/-- A response word (rule R45, `RSP_W`). -/
abbrev RspWord := BitVec 36

end Sys2Proof
end

