-- ==== Sys2Proof/Syntax.lean ====
section
/-! DEFINITION. The four commands of rule R47 (spec/30_encoding.md); rule R100 says there are no others.
Operands are the numbers the fields hold, `zext` of 16 bits (rule R46). -/

namespace Sys2Proof

/-- One constructor per row of spec/opcode_table.json. -/
inductive Instr where
  /-- `INIT` (rule R53). -/
  | init
  /-- `DECODE_BIT addr` (rule R57). -/
  | decodeBit (addr : Nat)
  /-- `DECODE_DIRECT_BITS n` (rule R63). -/
  | decodeDirectBits (n : Nat)
  /-- `INIT_BIT_MODELS base, count` (rule R70), in the order of the text form (rule R50). -/
  | initBitModels (base count : Nat)
  deriving DecidableEq, Repr

end Sys2Proof
end

