-- ==== Sys2Proof/WellFormed.lean ====
section
/-! DEFINITION. Which terms of `Instr` are commands: every operand "must fit 16 bits" (rules R44, R50). Operand
values that fit but are out of range are legal commands that fault when executed (rule R48). -/

namespace Sys2Proof

/-- `v` fits the 16-bit operand field it is put in (rule R44). -/
def fitsField (v : Nat) : Bool := decide (v < 65536)

/-- The command has an encoding (rules R44, R47). -/
def Instr.wellFormed : Instr → Bool
  | .init => true
  | .decodeBit addr => fitsField addr
  | .decodeDirectBits n => fitsField n
  | .initBitModels base count => fitsField base && fitsField count

end Sys2Proof
end

