-- ==== Sys2Proof/Decode.lean ====
section
/-! DEFINITION. Command words to commands and back (spec/30_encoding.md rules R43 line 1, R44, R46 to R49).
`decode` is total: a word that is no command is rejected with the reason rule R48 lists. -/

namespace Sys2Proof

/-- Field `op`, bits 39 to 32 (rule R44). -/
def CmdWord.op (w : CmdWord) : Nat := (w.extractLsb' 32 8).toNat

/-- Field `a`, bits 31 to 16 (rule R44). -/
def CmdWord.a (w : CmdWord) : Nat := (w.extractLsb' 16 16).toNat

/-- Field `b`, bits 15 to 0 (rule R44). -/
def CmdWord.b (w : CmdWord) : Nat := (w.extractLsb' 0 16).toNat

/-- Why a word selects no row (rule R48). -/
inductive Illegal where
  /-- `op` is none of 0x01 to 0x04. -/
  | reservedOp
  /-- `a` is not 0 in a command other than INIT_BIT_MODELS. -/
  | mustBeZeroA
  /-- `b` is not 0 in INIT. -/
  | mustBeZeroB
  deriving DecidableEq, Repr

/-- The row a command word selects (rule R47), or why it selects none (rule R48). -/
def decode (w : CmdWord) : Except Illegal Instr :=
  if CmdWord.op w = 0x01 then
    if CmdWord.a w ≠ 0 then .error .mustBeZeroA
    else if CmdWord.b w ≠ 0 then .error .mustBeZeroB
    else .ok .init
  else if CmdWord.op w = 0x02 then
    if CmdWord.a w ≠ 0 then .error .mustBeZeroA else .ok (.decodeBit (CmdWord.b w))
  else if CmdWord.op w = 0x03 then
    if CmdWord.a w ≠ 0 then .error .mustBeZeroA else .ok (.decodeDirectBits (CmdWord.b w))
  else if CmdWord.op w = 0x04 then .ok (.initBitModels (CmdWord.b w) (CmdWord.a w))
  else .error .reservedOp

/-- The word with the three fields given (rule R44). -/
def cmdWord (op a b : Nat) : CmdWord := BitVec.ofNat 40 (op * 2 ^ 32 + a % 2 ^ 16 * 2 ^ 16 + b % 2 ^ 16)

/-- The word of a command (rules R47, R53, R57, R63, R70). -/
def encode : Instr → CmdWord
  | .init => cmdWord 0x01 0 0
  | .decodeBit addr => cmdWord 0x02 0 addr
  | .decodeDirectBits n => cmdWord 0x03 0 n
  | .initBitModels base count => cmdWord 0x04 count base

/-- One row of the opcode map: a word selects it when `cmd & mask = match` (rule R47). -/
structure OpcodeRow where
  mnemonic : String
  mask : CmdWord
  pattern : CmdWord
  deriving DecidableEq, Repr

/-- The row of rule R47 a command belongs to. -/
def Instr.row : Instr → OpcodeRow
  | .init => ⟨"INIT", 0xFFFFFFFFFF#40, 0x0100000000#40⟩
  | .decodeBit _ => ⟨"DECODE_BIT", 0xFFFFFF0000#40, 0x0200000000#40⟩
  | .decodeDirectBits _ => ⟨"DECODE_DIRECT_BITS", 0xFFFFFF0000#40, 0x0300000000#40⟩
  | .initBitModels _ _ => ⟨"INIT_BIT_MODELS", 0xFF00000000#40, 0x0400000000#40⟩

/-- The word selects the row (rule R47). -/
def OpcodeRow.selects (r : OpcodeRow) (w : CmdWord) : Prop := w &&& r.mask = r.pattern

/-- The four rows of rule R47. -/
def opcodeRows : List OpcodeRow :=
  [Instr.row .init, Instr.row (.decodeBit 0), Instr.row (.decodeDirectBits 0), Instr.row (.initBitModels 0 0)]

/-- The decoder on an instruction of spec/opcode_table.json, given as the number of its bits. Every command is
one 40-bit word (rules R44, R49), so no other width is an instruction. -/
def decodeTableWord (nbits w : Nat) : Option Instr :=
  if nbits = 40 then
    match decode (BitVec.ofNat 40 w) with
    | .ok i => some i
    | .error _ => none
  else none

end Sys2Proof
end

