-- ==== Sys2Proof/Machine/Flags.lean ====
section
/-! DEFINITION. The block keeps no condition codes (spec/10_state.md rule R23). What a processor would call a flag
is here: the three decisions of the decode arithmetic, each computed and consumed inside one command. -/

namespace Sys2Proof.Machine

/-- `CODE < bound`, the unsigned comparison that splits DECODE_BIT (rules R17, R57). -/
def belowBound (code bound : Word) : Bool := decide (code < bound)

/-- `t` of DECODE_DIRECT_BITS: bit 31 of the 32-bit difference, exactly as the formula has it and NOT an unsigned
comparison (rules R63, R64; 90_conflicts.md C2). `r` is the halved RANGE. -/
def signBit (code r : Word) : Word := (code - r) >>> 31

/-- The test of Normalize: the top 8 bits of RANGE are all zero (rule R54, `TOP_MASK` of rule R8). -/
def topByteZero (range : Word) : Bool := decide (range &&& 0xFF000000#32 = 0#32)

end Sys2Proof.Machine
end

