-- ==== Sys2Proof/Machine/Operands.lean ====
section
/-! DEFINITION. The fixed parameters (spec/00_scope.md rule R8), the operand limits (rules R9, R62) and the
operand arithmetic of the commands: the split point and the entry update of spec/41_adaptive_bit.md rule R57, the
byte shifted into CODE (spec/40_core_init_normalize.md rules R53, R54). -/

namespace Sys2Proof.Machine

/-- `RANGE_INIT` (rule R8). -/
def rangeInit : Word := 0xFFFFFFFF#32

/-- `INIT_BYTES` (rule R8). -/
def initBytes : Nat := 5

/-- `PROB_INIT` (rule R8). -/
def probInit : Entry := 1024#16

/-- `MODEL_TOTAL` (rule R8): legal entries lie below it. -/
def modelTotal : Nat := 2048

/-- `NMAX` (rule R9, D9). -/
def maxCount : Nat := 32

/-- `bound = (RANGE >>> MODEL_BITS) * zext_32(prob)` (rules R15, R57). -/
def splitPoint (range : Word) (prob : Entry) : Word := (range >>> 11) * prob.setWidth 32

/-- `prob + ((2048 - prob) >>> MOVE_BITS)`, the entry after a 0 bit (rule R57; `up` of rule R58). -/
def probUp (p : Entry) : Entry := p + ((2048#16 - p) >>> 5)

/-- `prob - (prob >>> MOVE_BITS)`, the entry after a 1 bit (rule R57; `down` of rule R58). -/
def probDown (p : Entry) : Entry := p - (p >>> 5)

/-- `(c << 8) | zext_32(b)` (rules R16, R53, R54). -/
def shiftIn (c : Word) (b : Byte) : Word := (c <<< 8) ||| b.setWidth 32

end Sys2Proof.Machine
end

