-- ==== Sys2Proof/Config.lean ====
section
/-! DEFINITION. What an implementation fixes and the spec leaves open: the depth of the probability memory
(rule R9, OPEN) and the contents it powers up with (rule R33, treatment U3). Neither has a value that a proof
could see. -/

namespace Sys2Proof

/-- `PROB_DEPTH - 1`: the spec gives no depth but 1 <= PROB_DEPTH <= 65536 (rule R9, U20). -/
opaque Config.lastAddress : Fin 65536

/-- `PROB_DEPTH` of the instance that `State.reset` describes (log entry 3). -/
def Config.probDepth : Nat := Config.lastAddress.val + 1

/-- FREE VALUE. The entry at each address of the probability memory when it powers up: "an unspecified
`u16` if nothing has written `a`" (rule R33; U3: any of the 65536 values, never assumed to be 1024 or 0).
It depends on the address alone, because a read has no side effect and is idempotent (log entry 2). -/
opaque Config.powerUpEntry : Nat → Entry

theorem Config.one_le_probDepth : 1 ≤ Config.probDepth := by
  unfold Config.probDepth; omega

theorem Config.probDepth_le : Config.probDepth ≤ 65536 := by
  have := Config.lastAddress.isLt
  unfold Config.probDepth; omega

end Sys2Proof
end

