-- ==== Sys2Proof/Machine/State.lean ====
section
/-! DEFINITION. Everything the spec gives the machine (spec/10_state.md rule R19, spec/20_memory.md rules R31,
R32, spec/30_encoding.md rules R43, R52), as plain data, and the machine after reset (rules R29, R90). -/

namespace Sys2Proof.Machine

/-- The faults of rule R77. A fault of the spec ends in a NEXT state (rule R82), never in `Host.Outcome.fault`. -/
inductive FaultCode where
  /-- Code 1: a required byte, and the Byte Source answers end-of-stream (rule R78). -/
  | streamExhausted
  /-- Code 2: an address outside the probability memory (rule R79). -/
  | invalidIndex
  /-- Code 3: a direct-bit count above 32 (rule R81). -/
  | invalidCount
  /-- Code 4: a word that selects no opcode row (rule R80). -/
  | illegalCommand
  /-- Code 5: a decode command before any INIT (rule R74). -/
  | notInitialized
  /-- Code 6: a decode command after a fault (rule R75). -/
  | sessionFailed
  /-- Code 7: a stored entry of 2048 or more (rule R76). -/
  | probDomain
  deriving DecidableEq, Repr

/-- What `status` and `ERR` hold: 0, `OK`, or a fault code (rules R25, R45, R77). Codes 8 to 15 are never
produced (U9), so the type has none. -/
inductive Status where
  | ok
  | fault (f : FaultCode)
  deriving DecidableEq, Repr

/-- The arithmetic-coder registers (rules R20, R21), "a tightly coupled pair" (rule R75). -/
structure Coder where
  /-- `RANGE`, the width of the interval. -/
  range : Word
  /-- `CODE`, the position inside it. -/
  code : Word
  deriving DecidableEq, Repr

/-- `SESS` (rule R24), with `RANGE` and `CODE` where they hold a value: in `READY` they do; in `UNINIT` and
`FAILED` they "hold no value" (rules R24, R29, R82; U1; log entry 4). -/
inductive Session where
  | uninit
  | ready (c : Coder)
  | failed
  deriving DecidableEq, Repr

/-- One response (rule R45). -/
structure Response where
  status : Status
  value : Word
  deriving DecidableEq, Repr

/-- The probability memory's written entries: (address, entry) with strictly rising addresses (rule R32; log
entries 1 and 2). An address that is not listed has not been written since power-up. -/
abbrev Memory := List (Nat × Entry)

/-- What is left of a command whose request to the Byte Source is unanswered (rule R31 (c)): the temporaries of the
operation that wait with it (rule R27). The bytes taken and the entry written before stand in the state. -/
inductive Pending where
  /-- INIT, with `left` bytes still to come, the unanswered one among them, and `code` so far (rule R53). -/
  | init (left : Nat) (code : Word)
  /-- A firing Normalize of DECODE_BIT or DECODE_DIRECT_BITS with the registers it stands on; after it `left` more
  direct bits follow, and `value` is the value so far (rules R54, R57, R63). -/
  | normalize (c : Coder) (value : Word) (left : Nat)
  deriving DecidableEq, Repr

/-- The command and response channels between two moves (rules R29, R43, R52, R97). -/
inductive Flight where
  /-- No command in flight and no response pending: `cmd_ready` is high. -/
  | idle
  /-- A command in flight whose `BsRead()` has no answer yet (rules R31 (c), R97). -/
  | waiting (p : Pending)
  /-- A response is valid and not yet transferred (rule R97). -/
  | responding (r : Response)
  deriving DecidableEq, Repr

/-- What the outside does between two steps of the block (rules R4, R38, R43, R90, R92, R97). -/
inductive HostEvent where
  /-- Transfer a command word (rule R43). -/
  | command (w : CmdWord)
  /-- Write an entry through the host's own port (rule R38). -/
  | writeEntry (a : Nat) (v : Entry)
  /-- Read an entry through the host's own port (rule R38). -/
  | readEntry (a : Nat)
  /-- Place the Byte Source's cursor (rules R85, R92). -/
  | positionSource (p : Nat)
  /-- The Byte Source delivers `n` more bytes and then leaves requests unanswered; with none it answers every
  request (rules R31 (c), R97). -/
  | sourceReady (n : Option Nat)
  /-- The host raises or lowers `rsp_ready` (rules R52, R97). -/
  | hostReady (b : Bool)
  /-- `rst`, between two commands or while one is waiting for an answer (rule R90). -/
  | reset
  /-- `rst` in the middle of the command `w`, transferred now, once `k` of its transfers with the Byte Source and
  the probability memory have happened (rule R90, D25). -/
  | resetDuring (w : CmdWord) (k : Nat)
  deriving DecidableEq, Repr

/-- The machine stops. No command of the spec raises one of these: the spec's own faults are next states. -/
inductive Fault where
  /-- Raised by the host's own access to the probability memory at an address that does not exist, `PROB_DEPTH`
  or above (rules R33, R34, R39 define an access below it only). Safe: the model goes no further. -/
  | hostAddress
  deriving DecidableEq, Repr

/-- The model has no move. -/
inductive Refusal where
  /-- Raised by `exec`'s arm for an instruction without a meaning; no arm is one. Safe. -/
  | notModelled (mnemonic : String)
  /-- Raised when the host goes on with a decode command in a session whose Byte Source it has placed elsewhere
  since the INIT: outside the contract (rule R95, U17: "`refuse`: the model has no such move"). Placing it to
  begin a new session with INIT is no such case. Safe. -/
  | sourceMovedDuringSession
  deriving DecidableEq, Repr

/-- The machine and its environment. -/
structure State where
  /-- `SESS`, `RANGE` and `CODE` (rules R19 to R21, R24). -/
  session : Session
  /-- `ERR` (rule R25). -/
  err : Status
  /-- `RESULT`, the `value` of the most recent response (rule R26). -/
  result : Word
  /-- The probability memory `PM` (rule R32). -/
  pm : Memory
  /-- The Byte Source's bytes `S[0..L-1]` (rule R31). -/
  stream : List Byte
  /-- The Byte Source's cursor `POS` (rule R31). -/
  pos : Nat
  /-- How many more bytes the Byte Source delivers before it leaves a request unanswered; none: it answers every
  request, as the fairness assumption of rule R97 has it (log entry 8). -/
  answers : Option Nat
  /-- The host has placed the cursor since the last INIT that succeeded (log entry 10). -/
  sourcePlaced : Bool
  /-- The command in flight or the response pending (rules R29, R43, R97). -/
  flight : Flight
  /-- `rsp_ready`: the host takes a response as soon as it is valid (rules R52, R97). -/
  accepts : Bool
  /-- What the outside does next, oldest first (log entry 7). -/
  host : List HostEvent
  /-- The responses transferred, oldest first (rule R98). -/
  responses : List Response
  /-- The entries the host has read through its port, oldest first (rule R38). -/
  hostReads : List Entry
  /-- `PROB_DEPTH`, the instance's parameter: no step writes it (rules R9, R27; log entry 3). -/
  probDepth : Nat
  deriving DecidableEq, Repr

/-- `RESULT` after reset. DESIGN CHOICE, unsafe (log entry 5): the spec leaves it unspecified until the first
response, and no port shows it (rule R29, U2). -/
def resetResult : Word := 0#32

/-- The machine right after reset (rules R29, R90), with nothing placed in its environment (log entry 6). -/
def State.reset : State where
  session := .uninit
  err := .ok
  result := resetResult
  pm := []
  stream := []
  pos := 0
  answers := none
  sourcePlaced := false
  flight := .idle
  accepts := true
  host := []
  responses := []
  hostReads := []
  probDepth := Config.probDepth

end Sys2Proof.Machine
end

