-- ==== Sys2Proof/Machine/Ops.lean ====
section
/-! DEFINITION. The named operations over the state: the probability memory (spec/20_memory.md rules R32 to R34),
the Byte Source (rule R31), the response (spec/30_encoding.md rules R43, R45), taking a fault
(spec/60_exceptions.md rule R82), reset (rule R90), and the session checks of the step (rule R43 lines 3 and 4). -/

namespace Sys2Proof.Machine

/-! ### The probability memory -/

/-- The entry last written at `a`, none where nothing has written it. -/
def Memory.read? : Memory → Nat → Option Entry
  | [], _ => none
  | (b, v) :: m, a => if a = b then some v else Memory.read? m a

/-- Replace the whole entry at `a` and no other (rule R34), keeping the addresses strictly rising. -/
def Memory.write : Memory → Nat → Entry → Memory
  | [], a, v => [(a, v)]
  | (b, x) :: m, a, v =>
    if a < b then (a, v) :: (b, x) :: m
    else if a = b then (a, v) :: m
    else (b, x) :: Memory.write m a v

/-- `count` writes of `v` from `base` upwards (rule R70). -/
def Memory.fill : Memory → Nat → Nat → Entry → Memory
  | m, _, 0, _ => m
  | m, base, count + 1, v => Memory.fill (Memory.write m base v) (base + 1) count v

/-- The canonical form: the listed addresses strictly rise (log entry 2). -/
abbrev Memory.wf (m : Memory) : Prop := (m.map Prod.fst).Pairwise (· < ·)

/-- `MemRead(a, 16)` (rule R33): the value most recently written at `a`, else the free value the memory powered
up with (U3). This is the one definition of what an unlisted address reads as. -/
def State.readEntry (s : State) (a : Nat) : Entry := (Memory.read? s.pm a).getD (Config.powerUpEntry a)

/-- `MemWrite(a, 16, v)` (rule R34). -/
def State.writeEntry (s : State) (a : Nat) (v : Entry) : State := { s with pm := Memory.write s.pm a v }

/-- `count` times `MemWrite(base + i, 16, v)`, `i` rising (rule R70). -/
def State.fillEntries (s : State) (base count : Nat) (v : Entry) : State :=
  { s with pm := Memory.fill s.pm base count v }

/-! ### The Byte Source -/

/-- The cursor after `k` more bytes, and what the source will still deliver (rules R31, R37). -/
def State.takeBytes (s : State) (k : Nat) : State := { s with pos := s.pos + k, answers := s.answers.map (· - k) }

/-- The three outcomes of `BsRead()` (rule R31). -/
inductive ByteAnswer where
  /-- (a): a byte, and the cursor has advanced. -/
  | byte (b : Byte) (s : State)
  /-- (b): end-of-stream, and the cursor has not. -/
  | eos
  /-- (c): no answer yet. -/
  | noAnswer
  deriving Repr

/-- `BsRead()` (rule R31): no answer while the source leaves requests unanswered (log entry 8), else
`Byte(S[POS])`, or end-of-stream at the end. -/
def State.bsRead (s : State) : ByteAnswer :=
  if s.answers = some 0 then .noAnswer
  else
    match s.stream[s.pos]? with
    | some b => .byte b (State.takeBytes s 1)
    | none => .eos

/-! ### Responses, faults, reset -/

/-- `RESULT <- value ; respond(status, value)` (rule R43 line 6, rules R26, R45): the response is valid. -/
def State.respond (s : State) (status : Status) (value : Word) : State :=
  { s with result := value, flight := .responding ⟨status, value⟩ }

/-- The transfer of a pending response to a host that takes it (rules R43, R52, R97). -/
def State.deliver (s : State) : State :=
  match s.flight with
  | .responding r => if s.accepts then { s with flight := .idle, responses := s.responses ++ [r] } else s
  | _ => s

/-- The command stays in flight: its request to the Byte Source has no answer yet (rules R31 (c), R97). -/
def State.wait (s : State) (p : Pending) : State := { s with flight := .waiting p }

/-- ERR after a fault: the first fault since the last good INIT or reset is kept (rules R25, R82). -/
def State.errAfter (s : State) (f : FaultCode) : Status :=
  match s.session with
  | .failed => s.err
  | _ => .fault f

/-- `raise F` (rule R82): TAKING A FAULT, one operation for every fault of every command. RANGE and CODE hold no
value afterwards, the response carries the code and 0. Nothing records the `info` argument (U19). -/
def State.raise (s : State) (f : FaultCode) : State :=
  State.respond { s with err := State.errAfter s f, session := .failed } (.fault f) 0#32

/-- The end of a decode command: RANGE and CODE take their values and the response is sent (rule R43 line 6). -/
def State.complete (s : State) (c : Coder) (value : Word) : State :=
  State.respond { s with session := .ready c } .ok value

/-- The end of a successful INIT, beside the fault it returns from (rules R53, R84, R85): `SESS <- READY`,
`ERR <- 0`, RANGE and CODE written. It is the only return from `FAILED` but reset. The session's place in the
stream is the cursor's (rule R22). -/
def State.startSession (s : State) (c : Coder) : State :=
  State.respond { s with session := .ready c, err := .ok, sourcePlaced := false } .ok 0#32

/-- What `rst` does to the block (rules R29, R90): the channels are empty, so a command in flight is abandoned and a
response not yet transferred is lost. The probability memory, the Byte Source and everything already delivered
stay. -/
def State.resetBlock (s : State) : State :=
  { s with session := .uninit, err := .ok, result := resetResult, flight := .idle }

/-- Step lines 3 and 4 (rule R43): a decode command runs in `READY` only. -/
def State.whenReady (s : State) (run : Coder → State) : State :=
  match s.session with
  | .failed => State.raise s .sessionFailed
  | .uninit => State.raise s .notInitialized
  | .ready c => run c

/-! ### An operation that can meet a fault or an unanswered request on its way -/

/-- How a part of a command ends: with a value; with a fault at the point it raises it, the state then holding
every update made before that point (rule R82: "the fault is precise in this sense"); or at a request to the Byte
Source that has no answer yet (rule R31 (c)). -/
inductive OpResult (α : Type) where
  | done (value : α) (s : State)
  | raised (f : FaultCode) (s : State)
  | waiting (s : State)
  deriving Repr

/-- Go on with the value, take the fault, or stay in flight. -/
def OpResult.close {α : Type} (r : OpResult α) (go : α → State → State) : State :=
  match r with
  | .done v s => go v s
  | .raised f s => State.raise s f
  | .waiting s => s

/-- What stays in flight at an unanswered request, which only the caller of a part knows. -/
def OpResult.hold {α : Type} (r : OpResult α) (p : Pending) : OpResult α :=
  match r with
  | .done v s => .done v s
  | .raised f s => .raised f s
  | .waiting s => .waiting (State.wait s p)

/-- One part of a command after another. -/
def OpResult.andThen {α β : Type} (r : OpResult α) (go : α → State → OpResult β) : OpResult β :=
  match r with
  | .done v s => go v s
  | .raised f s => .raised f s
  | .waiting s => .waiting s

end Sys2Proof.Machine
end

