-- ==== Sys2Proof/Machine/RangeCore.lean ====
section
/-! DEFINITION. The Range Decoder Core (spec/40_core_init_normalize.md): INIT (rule R53) and the internal step
Normalize (rule R54). -/

namespace Sys2Proof.Machine

/-- The loop of INIT: `k` more bytes shifted into `c`, a missing byte raising StreamExhausted (rule R53). -/
def readBytes : Nat → Word → State → OpResult Word
  | 0, c, s => .done c s
  | k + 1, c, s =>
    match State.bsRead s with
    | .byte b s' => readBytes k (shiftIn c b) s'
    | .eos => .raised .streamExhausted s
    | .noAnswer => .waiting (State.wait s (.init (k + 1) c))

/-- INIT with `k` bytes to come and `c` the code so far, to its end (rule R53). -/
def finishInit (k : Nat) (c : Word) (s : State) : State :=
  (readBytes k c s).close fun code s' => State.startSession s' ⟨rangeInit, code⟩

/-- INIT as a function of the state (rule R53). -/
def runInit (s : State) : State := finishInit initBytes 0#32 s

/-- INIT: accepted in every session state (rule R53, D23). -/
def execInit (s : State) : Host.Outcome State Fault Refusal := .next (runInit s)

/-- Normalize (rule R54): one conditional step, never a loop. The registers are given and returned, and are
written when the command that performs it ends. -/
def runNormalize (c : Coder) (s : State) : OpResult Coder :=
  if topByteZero c.range then
    match State.bsRead s with
    | .byte b s' => .done ⟨c.range <<< 8, shiftIn c.code b⟩ s'
    | .eos => .raised .streamExhausted s
    | .noAnswer => .waiting s
  else .done c s

end Sys2Proof.Machine
end

