-- ==== Sys2Proof/Machine/AdaptiveBit.lean ====
section
/-! DEFINITION. The Adaptive Bit Decoder (spec/41_adaptive_bit.md): DECODE_BIT, rules R56, R57, R61. -/

namespace Sys2Proof.Machine

/-- What one adaptive decode computes before Normalize: the table of rule R61. -/
structure AdaptiveSplit where
  bit : Word
  coder : Coder
  entry : Entry
  deriving DecidableEq, Repr

/-- The split of the interval at `bound` and the update of the entry (rules R57, R61). -/
def adaptiveSplit (c : Coder) (p : Entry) : AdaptiveSplit :=
  if belowBound c.code (splitPoint c.range p) then
    ⟨0#32, ⟨splitPoint c.range p, c.code⟩, probUp p⟩
  else
    ⟨1#32, ⟨c.range - splitPoint c.range p, c.code - splitPoint c.range p⟩, probDown p⟩

/-- DECODE_BIT in a running session: address check, domain check (rule R56), split, the entry written, then
Normalize (rule R57, D14). -/
def decodeBitReady (addr : Nat) (s : State) (c : Coder) : State :=
  if s.probDepth ≤ addr then State.raise s .invalidIndex
  else if modelTotal ≤ (State.readEntry s addr).toNat then State.raise s .probDomain
  else
    let split := adaptiveSplit c (State.readEntry s addr)
    ((runNormalize split.coder (State.writeEntry s addr split.entry)).hold (.normalize split.coder split.bit 0)).close
      fun c' s' => State.complete s' c' split.bit

/-- DECODE_BIT as a function of the state (rules R43, R57). -/
def runDecodeBit (addr : Nat) (s : State) : State := State.whenReady s (decodeBitReady addr s)

/-- DECODE_BIT (rule R57). -/
def execDecodeBit (addr : Nat) (s : State) : Host.Outcome State Fault Refusal := .next (runDecodeBit addr s)

end Sys2Proof.Machine
end

