-- ==== Sys2Proof/Machine/DirectBits.lean ====
section
/-! DEFINITION. The Direct Bit Decoder (spec/42_direct_bits.md): DECODE_DIRECT_BITS, rules R62, R63. -/

namespace Sys2Proof.Machine

/-- `t` of one iteration, computed with the halved RANGE (rule R63). -/
def directSign (c : Coder) : Word := signBit c.code (c.range >>> 1)

/-- RANGE and CODE of one iteration, before its Normalize (rule R63). -/
def directHalve (c : Coder) : Coder :=
  ⟨c.range >>> 1, c.code - ((c.range >>> 1) &&& (directSign c - 1#32))⟩

/-- `k` more iterations of the loop with `acc` the bits so far (rule R63). -/
def directBits : Nat → Coder → Word → State → OpResult (Coder × Word)
  | 0, c, acc, s => .done (c, acc) s
  | k + 1, c, acc, s =>
    ((runNormalize (directHalve c) s).hold
        (.normalize (directHalve c) ((acc <<< 1) ||| (1#32 - directSign c)) k)).andThen
      fun c' s' => directBits k c' ((acc <<< 1) ||| (1#32 - directSign c)) s'

/-- A decode command from its unanswered Normalize on: the Normalize, `left` more direct bits, the response. It
takes up DECODE_BIT again with `left` 0 (rules R54, R57, R63). -/
def finishDecode (left : Nat) (c : Coder) (acc : Word) (s : State) : State :=
  (((runNormalize c s).hold (.normalize c acc left)).andThen fun c' s' => directBits left c' acc s').close
    fun r s' => State.complete s' r.1 r.2

/-- DECODE_DIRECT_BITS in a running session: the count check (rule R62), then the loop (rule R63). -/
def decodeDirectBitsReady (n : Nat) (s : State) (c : Coder) : State :=
  if maxCount < n then State.raise s .invalidCount
  else (directBits n c 0#32 s).close fun r s' => State.complete s' r.1 r.2

/-- DECODE_DIRECT_BITS as a function of the state (rules R43, R63). -/
def runDecodeDirectBits (n : Nat) (s : State) : State := State.whenReady s (decodeDirectBitsReady n s)

/-- DECODE_DIRECT_BITS (rule R63). -/
def execDecodeDirectBits (n : Nat) (s : State) : Host.Outcome State Fault Refusal :=
  .next (runDecodeDirectBits n s)

end Sys2Proof.Machine
end

