-- ==== Sys2Proof/Machine/TableInit.lean ====
section
/-! DEFINITION. Probability Table initialisation (spec/43_table_init.md): INIT_BIT_MODELS, rules R70 to R72. -/

namespace Sys2Proof.Machine

/-- The check on the whole region, on integers, before the first write (rule R70). -/
def regionFits (base count : Nat) (s : State) : Bool := decide (base + count ≤ s.probDepth)

/-- INIT_BIT_MODELS as a function of the state: executed in every session state (rules R70, R72). -/
def runInitBitModels (base count : Nat) (s : State) : State :=
  if regionFits base count s then State.respond (State.fillEntries s base count probInit) .ok 0#32
  else State.raise s .invalidIndex

/-- INIT_BIT_MODELS (rule R70). -/
def execInitBitModels (base count : Nat) (s : State) : Host.Outcome State Fault Refusal :=
  .next (runInitBitModels base count s)

end Sys2Proof.Machine
end

