-- ==== Sys2Proof/Machine/Dispatch.lean ====
section
/-! DEFINITION. One arm per command (spec/30_encoding.md rule R47): step line 5 of rule R43. -/

namespace Sys2Proof.Machine

def exec (i : Instr) (s : State) : Host.Outcome State Fault Refusal :=
  match i with
  | .init => Sys2Proof.Machine.execInit s
  | .decodeBit addr => Sys2Proof.Machine.execDecodeBit addr s
  | .decodeDirectBits n => Sys2Proof.Machine.execDecodeDirectBits n s
  | .initBitModels base count => Sys2Proof.Machine.execInitBitModels base count s

end Sys2Proof.Machine
end

