-- ==== Sys2Proof/Machine/HostPort.lean ====
section
/-! DEFINITION. What the block and its environment do on each move of the host: a command word (spec/30_encoding.md
rules R43, R48), the host's own access to the probability memory (spec/20_memory.md rule R38), placing the Byte
Source (spec/70_reset_and_hazards.md rule R92), and reset, between commands or in the middle of one (rule R90). -/

namespace Sys2Proof.Machine

/-- DECODE_BIT and DECODE_DIRECT_BITS, the two commands that need a running session (rules R43, R74, R75). -/
def isDecodeCommand : Instr → Bool
  | .init => false
  | .decodeBit _ => true
  | .decodeDirectBits _ => true
  | .initBitModels _ _ => false

/-- The host goes on with a session whose Byte Source it has placed elsewhere (rule R95, U17; log entry 10). An
INIT instead begins a new session there (rules R53, R85, R92). -/
def continuesMovedSession (i : Instr) (s : State) : Bool :=
  match s.session with
  | .ready _ => s.sourcePlaced && isDecodeCommand i
  | _ => false

/-- One step of the block, up to its response (rule R43): a word that selects no row raises IllegalCommand and
performs no part of any operation (rule R48); any other word runs its command. -/
def acceptCommand (w : CmdWord) (s : State) : Host.Outcome State Fault Refusal :=
  match decode w with
  | .ok i => if continuesMovedSession i s then .refused .sourceMovedDuringSession else exec i s
  | .error _ => .next (State.raise s .illegalCommand)

/-- The command in flight goes on where it waited (rules R31 (c), R97). -/
def resume (p : Pending) (s : State) : State :=
  match p with
  | .init left code => finishInit left code s
  | .normalize c value left => finishDecode left c value s

/-- The Byte Source becomes ready to deliver `n` more bytes, or all of them; a command that waits for one goes
on (rule R97). -/
def sourceReady (n : Option Nat) (s : State) : State :=
  match s.flight with
  | .waiting p => resume p { s with answers := n, flight := .idle }
  | _ => { s with answers := n }

/-- The host writes an entry through its own port; any 16-bit value can be stored (rule R38, U4). -/
def hostWrite (a : Nat) (v : Entry) (s : State) : Host.Outcome State Fault Refusal :=
  if a < s.probDepth then .next (State.writeEntry s a v) else .fault .hostAddress

/-- The host reads an entry through its own port (rules R33, R38). -/
def hostRead (a : Nat) (s : State) : Host.Outcome State Fault Refusal :=
  if a < s.probDepth then .next { s with hostReads := s.hostReads ++ [State.readEntry s a] }
  else .fault .hostAddress

/-- The host places the Byte Source's cursor (rules R85, R92), in every session state: in `READY` it does so to
begin a new session with INIT, which needs no close of the old one (rules R53, R98). -/
def positionSource (p : Nat) (s : State) : Host.Outcome State Fault Refusal :=
  .next { s with pos := p, sourcePlaced := true }

/-- At most `k` of the byte reads that lead from `s` to `s'`. -/
def consumeUpTo (k : Nat) (s s' : State) : State := State.takeBytes s (min k (s'.pos - s.pos))

/-- What a command leaves of its effects outside the block when it is abandoned after `k` transfers (rule R90:
"the Byte Source bytes it had consumed stay consumed and a probability entry it had written stays written"). The
order of the transfers is that of rule R37: DECODE_BIT reads its entry, writes it, then reads at most one byte. -/
def abandon (i : Instr) (k : Nat) (s : State) : State :=
  match i with
  | .init => consumeUpTo k s (runInit s)
  | .decodeBit addr =>
    if k < 2 then s else consumeUpTo (k - 2) { s with pm := (runDecodeBit addr s).pm } (runDecodeBit addr s)
  | .decodeDirectBits n => consumeUpTo k s (runDecodeDirectBits n s)
  | .initBitModels base count =>
    if regionFits base count s then State.fillEntries s base (min k count) probInit else s

/-- Reset in the middle of the command `w` (rule R90, D25): no response is sent. -/
def resetDuring (w : CmdWord) (k : Nat) (s : State) : Host.Outcome State Fault Refusal :=
  match decode w with
  | .ok i =>
    if continuesMovedSession i s then .refused .sourceMovedDuringSession
    else .next (State.resetBlock (abandon i k s))
  | .error _ => .next (State.resetBlock s)

/-- After a move, a pending response is transferred if the host takes it (rule R43). -/
def delivered (o : Host.Outcome State Fault Refusal) : Host.Outcome State Fault Refusal :=
  match o with
  | .next s => .next (State.deliver s)
  | .fault f => .fault f
  | .refused r => .refused r

/-- One move of the outside. -/
def hostMove (e : HostEvent) (s : State) : Host.Outcome State Fault Refusal :=
  match e with
  | .command w => delivered (acceptCommand w s)
  | .writeEntry a v => hostWrite a v s
  | .readEntry a => hostRead a s
  | .positionSource p => positionSource p s
  | .sourceReady n => delivered (.next (sourceReady n s))
  | .hostReady b => delivered (.next { s with accepts := b })
  | .reset => .next (State.resetBlock s)
  | .resetDuring w k => resetDuring w k s

/-- Which moves can be made now. With a command in flight or a response pending `cmd_ready` is low (rules R43, R52)
and the host touches neither the probability memory nor the Byte Source (rules R38, R95, U17: "enabled only
alternately"): only an answer, `rsp_ready` and reset can come, and anything else waits. -/
def canMove (e : HostEvent) (s : State) : Bool :=
  match s.flight with
  | .idle => true
  | _ =>
    match e with
    | .sourceReady _ => true
    | .hostReady _ => true
    | .reset => true
    | .command _ => false
    | .writeEntry _ _ => false
    | .readEntry _ => false
    | .positionSource _ => false
    | .resetDuring _ _ => false

end Sys2Proof.Machine
end

