-- ==== Sys2Proof/Machine/Step.lean ====
section
/-! DEFINITION. One step: the next move of the outside. With none left the block waits (spec/60_exceptions.md rule R89:
"an idle block simply waits for `cmd_valid`"), and where the next move cannot be made the command in flight or the
response pending waits, without bound (spec/70_reset_and_hazards.md rule R97). -/

namespace Sys2Proof.Machine

/-- One step of the machine (rule R43; log entries 7 and 8). -/
def step (s : State) : Host.Outcome State Fault Refusal :=
  match s.host with
  | [] => .next s
  | e :: es => if canMove e s then hostMove e { s with host := es } else .next s

/-- `s` with the command word as the next move (log entry 7): the block fetches nothing (rule R22), it takes the
command the host transfers next, with no command in flight and no session that the host has left. Only the low
`nbits` bits are the instruction. -/
def State.withFetchWord (s : State) (nbits w : Nat) : State :=
  { s with
    flight := .idle
    sourcePlaced := false
    host := .command (BitVec.ofNat 40 (w % 2 ^ nbits)) :: s.host }

end Sys2Proof.Machine
end

