-- ==== Sys2Proof/Machine/Assembler.lean ====
section
/-! DEFINITION. The text form of a command (spec/30_encoding.md rule R50) and the pseudo-commands and what they
expand to (rule R51). -/

namespace Sys2Proof.Machine

/-- One line of a command sequence (rule R50): INIT_BIT_MODELS has its base first, its count second. -/
def commandText : Instr → String
  | .init => "INIT"
  | .decodeBit addr => "DECODE_BIT " ++ toString addr
  | .decodeDirectBits n => "DECODE_DIRECT_BITS " ++ toString n
  | .initBitModels base count => "INIT_BIT_MODELS " ++ toString base ++ ", " ++ toString count

/-- A Probability Table the host has placed in the probability memory (rules R32, R51). -/
structure Table where
  base : Nat
  size : Nat
  deriving DecidableEq, Repr

/-- The pseudo-commands (rule R51). -/
inductive Pseudo where
  | init
  | decodeBit (t : Table) (i : Nat)
  | decodeDirectBits (n : Nat)
  | initBitModels (t : Table)
  deriving DecidableEq, Repr

/-- Counts of at most 32 that sum to `n`, full ones first (rule R51; log entry 18). -/
def splitCount (n : Nat) : List Nat :=
  List.replicate (n / maxCount) maxCount ++ (if n % maxCount = 0 ∧ 0 < n then [] else [n % maxCount])

/-- What a pseudo-command expands to (rule R51). A table of 65536 entries can only stand at base 0. -/
def expand : Pseudo → List Instr
  | .init => [.init]
  | .decodeBit t i => [.decodeBit (t.base + i)]
  | .decodeDirectBits n => (splitCount n).map Instr.decodeDirectBits
  | .initBitModels t =>
    if t.size ≤ 65535 then [.initBitModels t.base t.size]
    else [.initBitModels 0 32768, .initBitModels 32768 32768]

/-- The number the values of several DECODE_DIRECT_BITS make, first result most significant (rule R51). -/
def joinValues (parts : List (Nat × Word)) : Nat :=
  parts.foldl (fun acc part => acc * 2 ^ part.1 + part.2.toNat) 0

end Sys2Proof.Machine
end

