-- ==== Sys2Proof/Machine/Ports.lean ====
section
/-! DEFINITION. The words and levels the block drives: fault codes (spec/60_exceptions.md rule R77), the response
word (spec/30_encoding.md rule R45), the status outputs `sess[1:0]` and `err[3:0]`, the handshake outputs (rule R52). -/

namespace Sys2Proof.Machine

/-- The numeric fault codes (rule R77, D12). -/
def FaultCode.code : FaultCode → BitVec 4
  | .streamExhausted => 1
  | .invalidIndex => 2
  | .invalidCount => 3
  | .illegalCommand => 4
  | .notInitialized => 5
  | .sessionFailed => 6
  | .probDomain => 7

/-- The `status` field (rules R45, R77). -/
def Status.code : Status → BitVec 4
  | .ok => 0
  | .fault f => FaultCode.code f

/-- The 36-bit response word: `status` in bits 35 to 32, `value` in bits 31 to 0 (rule R45). -/
def Response.word (r : Response) : RspWord := Status.code r.status ++ r.value

/-- The 2-bit `SESS` (rule R24); no session is 3. -/
def Session.code : Session → BitVec 2
  | .uninit => 0
  | .ready _ => 1
  | .failed => 2

/-- Output `sess[1:0]` (rule R52). -/
def State.sessOut (s : State) : BitVec 2 := Session.code s.session

/-- Output `err[3:0]` (rule R52). -/
def State.errOut (s : State) : BitVec 4 := Status.code s.err

/-- Output `cmd_ready`: "high only when no command is in flight and no response is pending" (rule R52). -/
def State.cmdReady (s : State) : Bool := decide (s.flight = .idle)

/-- Output `rsp_valid` (rules R52, R90, R97). -/
def State.rspValid (s : State) : Bool :=
  match s.flight with
  | .responding _ => true
  | _ => false

/-- Output `bs_ready`, the request "next byte" (rule R52): high while a request is unanswered. -/
def State.bsReady (s : State) : Bool :=
  match s.flight with
  | .waiting _ => true
  | _ => false

/-- `RANGE`, where it holds a value (rules R20, R24, R29). -/
def State.range (s : State) : Option Word :=
  match s.session with
  | .ready c => some c.range
  | _ => none

/-- `CODE`, where it holds a value (rules R21, R24, R29). -/
def State.code (s : State) : Option Word :=
  match s.session with
  | .ready c => some c.code
  | _ => none

end Sys2Proof.Machine
end

