-- ==== Sys2Proof/Safety.lean ====
section
/-! DEFINITION. The terms in which claims speak of a run: how a command was answered, which states are sound, and
the conditions under which the document's invariants hold (spec/10_state.md rule R30). -/

namespace Sys2Proof.Machine

/-- From `s` a command has led to `t` with its response valid, and the response is `(OK, RESULT)` (rule R43 line 6). -/
abbrev AnsweredOk (s t : State) : Prop := t.flight = .responding ⟨.ok, t.result⟩ ∧ t.responses = s.responses

/-- From `s` a command has led to `t` with its response valid, and it carries the fault `f` and 0 (rule R82). -/
abbrev AnsweredFault (f : FaultCode) (s t : State) : Prop :=
  t.flight = .responding ⟨.fault f, 0#32⟩ ∧ t.responses = s.responses

/-- From `s` a command has led to `t`, in which it waits for the Byte Source (rules R31 (c), R97). -/
abbrev Unanswered (s t : State) : Prop := (∃ p, t.flight = .waiting p) ∧ t.responses = s.responses

/-- The Byte Source answers at least the next `n` requests that it has a byte for; with `n` large enough this is the
fairness assumption of rule R97. -/
abbrev State.Answers (s : State) (n : Nat) : Prop := ∀ k, s.answers = some k → n ≤ k

/-- The environment as the fairness assumption of rule R97 has it: the host takes every response, and the Byte Source
answers every request of one command, which makes at most 32 (rules R37, R55). -/
abbrev State.Fair (s : State) : Prop := s.accepts = true ∧ s.Answers 32

/-- The host transfers the command word `w` now, to an idle block, and does not go on with a session whose Byte Source
it has placed elsewhere (rules R43, R95); `es` are the moves after it. -/
abbrev State.Takes (s : State) (w : CmdWord) (es : List HostEvent) : Prop :=
  s.host = .command w :: es ∧ s.flight = .idle ∧ ∀ i, decode w = .ok i → continuesMovedSession i s = false

/-- From `s` a move has led to `t` with the response `r` to a command: transferred, or valid and waiting for the host
(rules R43, R97). -/
abbrev RespondedWith (r : Response) (s t : State) : Prop :=
  (t.flight = .idle ∧ t.responses = s.responses ++ [r]) ∨
    (t.flight = .responding r ∧ t.responses = s.responses)

/-- `s` with its command answered `(OK, v)` (rules R26, R43 line 6, R45), written out. -/
def afterOk (v : Word) (s : State) : State :=
  { s with result := v, flight := .responding ⟨.ok, v⟩ }

/-- `s` after the fault `f`, as the pseudocode of rule R82 has it, written out. -/
def afterFault (f : FaultCode) (s : State) : State :=
  { s with
    err := if s.session = .failed then s.err else .fault f
    session := .failed
    result := 0#32
    flight := .responding ⟨.fault f, 0#32⟩ }

/-- The channels are as a move leaves them: what waits for the Byte Source is a part of INIT or a firing Normalize
of a running session, and the source is not answering; a pending response carries RESULT, and the host is not
taking it (rules R26, R31, R43, R54, R97). -/
def State.flightSound (s : State) : Bool :=
  match s.flight with
  | .idle => true
  | .waiting (.init left _) => decide (1 ≤ left) && decide (left ≤ 5) && decide (s.answers = some 0)
  | .waiting (.normalize c _ left) =>
    decide (c.range.toNat < 0x01000000) && decide (left < 32) && decide (s.answers = some 0) &&
      s.range.isSome
  | .responding r => decide (r.value = s.result) && !s.accepts

/-- What every state between two moves satisfies: the memory in canonical form (log entry 2) and inside
`[0, PROB_DEPTH)` (rule R32), `ERR` 0 exactly when no fault has ended the session (rule R25), the parameter legal
(rule R9; log entry 3), the channels as above. -/
abbrev State.Sound (s : State) : Prop :=
  Memory.wf s.pm ∧ (∀ e ∈ s.pm, e.1 < s.probDepth) ∧ (s.err = .ok ↔ s.session ≠ .failed) ∧
    1 ≤ s.probDepth ∧ s.probDepth ≤ 65536 ∧ s.flightSound = true

/-- Every entry of the probability memory lies in `[lo, hi]`, as rules R30 and R58 ask of the entries read. -/
abbrev State.EntriesWithin (s : State) (lo hi : Nat) : Prop :=
  ∀ a, a < s.probDepth → lo ≤ (State.readEntry s a).toNat ∧ (State.readEntry s a).toNat ≤ hi

/-- Invariant (a) of rule R30: in a session, RANGE is at least `TOP`. -/
abbrev State.RangeAboveTop (s : State) : Prop := ∀ c, s.session = .ready c → 0x01000000 ≤ c.range.toNat

/-- A list of commands, one after the other, each response transferred before the next command. -/
def execAll : List Instr → State → Host.Outcome State Fault Refusal
  | [], s => .next s
  | i :: is, s =>
    match exec i s with
    | .next t => execAll is (State.deliver t)
    | .fault f => .fault f
    | .refused r => .refused r

end Sys2Proof.Machine
end

