-- ==== Sys2Proof/Certificates/Slice0/Obligations.lean ====
section
/-! DEFINITION. The statements for the provers, from the numbered rules of spec/. None is about a program. -/

open Sys2Proof Sys2Proof.Machine

/-! ### Encoding (spec/30_encoding.md) -/

/-- Command words of spec/95_test_vectors.md, each decoded to what its row says (rule R47), and the illegal words
X1 to X7 refused (rule R48). -/
def Obligations.SpecWordsDecode : Prop :=
  decode 0x0100000000#40 = .ok .init ∧
  decode 0x0200000002#40 = .ok (.decodeBit 2) ∧
  decode 0x020000FFFF#40 = .ok (.decodeBit 65535) ∧
  decode 0x0300000020#40 = .ok (.decodeDirectBits 32) ∧
  decode 0x0400030004#40 = .ok (.initBitModels 4 3) ∧
  decode 0x0000000000#40 = .error .reservedOp ∧
  decode 0x0100000001#40 = .error .mustBeZeroB ∧
  decode 0x0100010000#40 = .error .mustBeZeroA ∧
  decode 0x0200010002#40 = .error .mustBeZeroA ∧
  decode 0x0300010000#40 = .error .mustBeZeroA ∧
  decode 0x0500000000#40 = .error .reservedOp ∧
  decode 0xFF00000000#40 = .error .reservedOp

/-- Every well-formed command, with every operand at every value its field admits, is what its word decodes to
(rules R44, R46, R47). -/
def Obligations.DecodeOfEncode : Prop :=
  ∀ i : Instr, i.wellFormed = true → decode (encode i) = .ok i

/-- Where a word is a command, it is the word of that command, and the command is well formed (rules R44, R47). -/
def Obligations.EncodeOfDecode : Prop :=
  ∀ (w : CmdWord) (i : Instr), decode w = .ok i → encode i = w ∧ i.wellFormed = true

/-- Decoding by fields is decoding by mask and match, and the rows are disjoint (rule R47). -/
def Obligations.DecodeFollowsMaskAndMatch : Prop :=
  (∀ (w : CmdWord) (i : Instr), decode w = .ok i → w &&& i.row.mask = i.row.pattern) ∧
  (∀ (w : CmdWord) (r : OpcodeRow), r ∈ opcodeRows → w &&& r.mask = r.pattern →
    ∃ i, decode w = .ok i ∧ i.row = r) ∧
  (∀ (w : CmdWord) (r r' : OpcodeRow), r ∈ opcodeRows → r' ∈ opcodeRows →
    w &&& r.mask = r.pattern → w &&& r'.mask = r'.pattern → r = r')

/-- Rule R48: exactly the words it lists are illegal, and a step on one raises IllegalCommand and performs no part
of any operation. -/
def Obligations.IllegalWordsExactly : Prop :=
  (∀ w : CmdWord,
    (∃ e, decode w = .error e) ↔
      ((w.extractLsb' 32 8).toNat ∉ [1, 2, 3, 4] ∨
       ((w.extractLsb' 32 8).toNat ∈ [1, 2, 3] ∧ (w.extractLsb' 16 16).toNat ≠ 0) ∨
       ((w.extractLsb' 32 8).toNat = 1 ∧ (w.extractLsb' 0 16).toNat ≠ 0))) ∧
  (∀ (s : State) (w : CmdWord) (es : List HostEvent), s.Takes w es → (∃ e, decode w = .error e) →
    step s = .next (State.deliver { s with
      host := es
      err := if s.session = .failed then s.err else .fault .illegalCommand
      session := .failed
      result := 0#32
      flight := .responding ⟨.fault .illegalCommand, 0#32⟩ }))

/-- Rule R45's fields: `status` in bits 35 to 32, `value` in bits 31 to 0. -/
def Obligations.ResponseWordLayout : Prop :=
  ∀ r : Response,
    (r.word.extractLsb' 32 4 = r.status.code) ∧ (r.word.extractLsb' 0 32 = r.value) ∧
    r.word.toNat = r.status.code.toNat * 2 ^ 32 + r.value.toNat

/-- Rule R77's codes, the numbers of `SESS` (rules R24, R52), and that no two conditions share a code. -/
def Obligations.FaultCodeNumbers : Prop :=
  (Status.code .ok = 0#4 ∧ FaultCode.code .streamExhausted = 1#4 ∧ FaultCode.code .invalidIndex = 2#4 ∧
    FaultCode.code .invalidCount = 3#4 ∧ FaultCode.code .illegalCommand = 4#4 ∧
    FaultCode.code .notInitialized = 5#4 ∧ FaultCode.code .sessionFailed = 6#4 ∧
    FaultCode.code .probDomain = 7#4) ∧
  (∀ x y : Status, x.code = y.code → x = y) ∧
  (∀ s : State, (s.session = .uninit → s.sessOut = 0#2) ∧ (∀ c, s.session = .ready c → s.sessOut = 1#2) ∧
    (s.session = .failed → s.sessOut = 2#2)) ∧
  (∀ (s : State) (f : FaultCode), s.err = .fault f → s.errOut = FaultCode.code f) ∧
  ∀ s : State, s.err = .ok → s.errOut = 0#4

/-! ### The step (spec/30_encoding.md rule R43) -/

/-- A step runs the decoded command: nothing is added around `exec` but that the host has moved on to its next
move, and that the response is transferred if the host takes it; and `withFetchWord` puts a word where the next
step takes its command. -/
def Obligations.StepRunsDecodedCommand : Prop :=
  (∀ (s : State) (w : CmdWord) (es : List HostEvent) (i : Instr), s.Takes w es → decode w = .ok i →
    ∃ t, exec i { s with host := es } = .next t ∧ step s = .next (State.deliver t)) ∧
  (∀ (s : State) (w : Nat) (i : Instr), decode (BitVec.ofNat 40 w) = .ok i →
    ∃ t, exec i { s with flight := .idle, sourcePlaced := false } = .next t ∧
      step (s.withFetchWord 40 w) = .next (State.deliver t)) ∧
  (∀ (s : State) (r : Response), s.flight = .responding r →
    (s.accepts = true → State.deliver s = { s with flight := .idle, responses := s.responses ++ [r] }) ∧
    (s.accepts = false → State.deliver s = s)) ∧
  (∀ s : State, (∀ r, s.flight ≠ .responding r) → State.deliver s = s)

/-- The model's choice (log entry 7), after rule R89: with no move of the host left the block waits, unchanged. -/
def Obligations.IdleBlockWaits : Prop := ∀ s : State, s.host = [] → step s = .next s

/-- Every command word, from every state, gets exactly one response where the environment is fair (rule R97), and
RESULT is its value, 0 on a fault (rules R26, R43, R45). -/
def Obligations.EveryCommandAnsweredOnce : Prop :=
  ∀ (s : State) (w : CmdWord) (es : List HostEvent), s.Takes w es → s.Fair →
    ∃ (t : State) (r : Response), step s = .next t ∧ t.responses = s.responses ++ [r] ∧ t.result = r.value ∧
      t.host = es ∧ t.flight = .idle ∧ (r.status ≠ .ok → r.value = 0#32)

/-- Rule R97 without fairness. A command word leads to a transferred response; or to one that is valid and that the host
is not taking; or to a command in flight whose request the Byte Source is not answering, which happens only where
the source delivers fewer bytes than the command asks for. While a command is in flight or a response pending, for
however long, no command is accepted, the host reaches neither memory nor source (rules R38, R93, R95), and there is
no time-out; the host's `rsp_ready` ends the wait for it, an answer takes the command up again, a reset abandons it
(rule R90). -/
def Obligations.CommandCompletesOrHangs : Prop :=
  (∀ (s : State) (w : CmdWord) (es : List HostEvent), s.Takes w es → ∃ t, step s = .next t ∧ t.host = es ∧
    ((∃ r, t.flight = .idle ∧ s.accepts = true ∧ t.responses = s.responses ++ [r]) ∨
      (∃ r, t.flight = .responding r ∧ s.accepts = false ∧ t.responses = s.responses) ∨
      (∃ p, t.flight = .waiting p ∧ t.answers = some 0 ∧ t.responses = s.responses ∧
        s.answers = some (t.pos - s.pos)))) ∧
  (∀ (s : State) (e : HostEvent) (es : List HostEvent), s.flight ≠ .idle → s.host = e :: es →
    ((∃ w, e = .command w) ∨ (∃ a v, e = .writeEntry a v) ∨ (∃ a, e = .readEntry a) ∨ (∃ p, e = .positionSource p) ∨
      (∃ w k, e = .resetDuring w k)) → s.cmdReady = false ∧ step s = .next s) ∧
  (∀ (s : State) (r : Response) (b : Bool) (es : List HostEvent), s.flight = .responding r →
    s.host = .hostReady b :: es → step s = .next (if b then
      { s with host := es, accepts := true, flight := .idle, responses := s.responses ++ [r] }
      else { s with host := es, accepts := false })) ∧
  (∀ (s : State) (p : Pending) (n : Option Nat) (es : List HostEvent), s.flight = .waiting p →
    s.host = .sourceReady n :: es →
    step s = .next (State.deliver (resume p { s with host := es, answers := n, flight := .idle }))) ∧
  (∀ (s : State) (p : Pending) (b : Bool) (es : List HostEvent), s.flight = .waiting p →
    s.host = .hostReady b :: es → step s = .next { s with host := es, accepts := b }) ∧
  (∀ (s : State) (es : List HostEvent), s.host = .reset :: es → ∃ t, step s = .next t ∧ t.flight = .idle ∧
    t.session = .uninit ∧ t.err = .ok ∧ t.responses = s.responses ∧ t.pos = s.pos ∧
    ∀ a, t.readEntry a = s.readEntry a)

/-- A command that had to wait for the Byte Source ends as if it had not: taken up with `m` more bytes to come, it is the
same command with those and the ones it had already taken (rules R31 (c), R97: the time an answer takes is
invisible). -/
def Obligations.ResumedCommandIsTheCommand : Prop :=
  ∀ (s t : State) (i : Instr) (p : Pending) (m : Option Nat), exec i s = .next t → t.flight = .waiting p →
    exec i { s with answers := m.map (· + (t.pos - s.pos)) } = .next (resume p { t with answers := m })

/-- The order of the checks (rule R83), up to the arithmetic: which fault a command word is answered with, in a fair
environment (rule R97). -/
def Obligations.FaultPriority : Prop :=
  ∀ (s : State) (w : CmdWord) (es : List HostEvent), s.Takes w es → s.Fair →
    ∃ (t : State) (r : Response), step s = .next t ∧ t.responses = s.responses ++ [r] ∧
      (∀ e, decode w = .error e → r.status = .fault .illegalCommand) ∧
      (∀ i, decode w = .ok i → isDecodeCommand i = true → s.session = .failed →
        r.status = .fault .sessionFailed) ∧
      (∀ i, decode w = .ok i → isDecodeCommand i = true → s.session = .uninit →
        r.status = .fault .notInitialized) ∧
      (∀ addr c, decode w = .ok (.decodeBit addr) → s.session = .ready c →
        (s.probDepth ≤ addr → r.status = .fault .invalidIndex) ∧
        (addr < s.probDepth → 2048 ≤ (s.readEntry addr).toNat → r.status = .fault .probDomain) ∧
        (addr < s.probDepth → (s.readEntry addr).toNat < 2048 →
          r.status = .ok ∨ r.status = .fault .streamExhausted)) ∧
      (∀ n c, decode w = .ok (.decodeDirectBits n) → s.session = .ready c →
        (32 < n → r.status = .fault .invalidCount) ∧
        (n ≤ 32 → r.status = .ok ∨ r.status = .fault .streamExhausted)) ∧
      (∀ base count, decode w = .ok (.initBitModels base count) →
        (s.probDepth < base + count → r.status = .fault .invalidIndex) ∧
        (base + count ≤ s.probDepth → r.status = .ok)) ∧
      (decode w = .ok .init → r.status = .ok ∨ r.status = .fault .streamExhausted)

/-! ### Faults and the session (spec/60_exceptions.md, spec/10_state.md) -/

/-- Taking a fault, the pseudocode of rule R82: nothing but these four pieces of state changes. -/
def Obligations.RaiseTakesFault : Prop :=
  ∀ (s : State) (f : FaultCode),
    State.raise s f = { s with
      err := if s.session = .failed then s.err else .fault f
      session := .failed
      result := 0#32
      flight := .responding ⟨.fault f, 0#32⟩ }

/-- Rules R74 and R75: a decode command outside `READY` faults before its own checks, whatever its operand, and
`SessionFailed` leaves ERR. -/
def Obligations.DecodeCommandsNeedSession : Prop :=
  ∀ (s : State) (i : Instr), isDecodeCommand i = true →
    (s.session = .uninit → exec i s = .next { s with
      err := .fault .notInitialized
      session := .failed
      result := 0#32
      flight := .responding ⟨.fault .notInitialized, 0#32⟩ }) ∧
    (s.session = .failed → exec i s = .next { s with
      result := 0#32
      flight := .responding ⟨.fault .sessionFailed, 0#32⟩ })

/-- The session-state transitions of rule R84, every row: a reset, between two commands or in the middle of one, a
command that succeeds, a command that faults; no command leads back to `UNINIT`. A command that had to wait for the
Byte Source is one of these once it is answered, and moves nothing before.
`State.Sound` gives the rows their ERR 0 before (invariant StepKeepsSound). -/
def Obligations.SessionTransitions : Prop :=
  ∀ (s : State), s.Sound →
    (∀ es, s.host = .reset :: es → ∃ t, step s = .next t ∧ t.session = .uninit ∧ t.err = .ok) ∧
    (∀ w k es, s.host = .resetDuring w k :: es → s.flight = .idle →
      (∀ i, decode w = .ok i → continuesMovedSession i s = false) →
      ∃ t, step s = .next t ∧ t.session = .uninit ∧ t.err = .ok) ∧
    (∀ (w : CmdWord) (es : List HostEvent) (t : State) (r : Response), s.Takes w es → step s = .next t →
      RespondedWith r s t →
        (r.status = .ok → decode w = .ok .init → (∃ c, t.session = .ready c) ∧ t.err = .ok) ∧
        (r.status = .ok → decode w ≠ .ok .init → t.sessOut = s.sessOut ∧ t.err = s.err ∧
          (s.session ≠ .failed → t.err = .ok)) ∧
        (∀ i, r.status = .ok → decode w = .ok i → isDecodeCommand i = true →
          (∃ c, s.session = .ready c) ∧ ∃ c, t.session = .ready c) ∧
        (∀ f, r.status = .fault f → t.session = .failed ∧
          (s.session ≠ .failed → t.err = .fault f) ∧ (s.session = .failed → t.err = s.err)) ∧
        (t.session = .uninit → s.session = .uninit)) ∧
    (∀ (p : Pending) (n : Option Nat) (es : List HostEvent) (t : State) (r : Response), s.flight = .waiting p →
      s.host = .sourceReady n :: es → step s = .next t → RespondedWith r s t →
        (r.status = .ok → (∃ c, t.session = .ready c) ∧ t.err = .ok) ∧
        (∀ f, r.status = .fault f → t.session = .failed ∧
          (s.session ≠ .failed → t.err = .fault f) ∧ (s.session = .failed → t.err = s.err))) ∧
    (∀ (e : HostEvent) (es : List HostEvent) (t : State) (p : Pending), s.host = e :: es → step s = .next t →
      t.flight = .waiting p → t.session = s.session ∧ t.err = s.err)

/-! ### INIT and Normalize (spec/40_core_init_normalize.md) -/

/-- INIT with five bytes at the cursor and a source that delivers them, in every session state (rule R53): CODE is the
last four, big-endian, RANGE all ones, ERR 0, and nothing else changes. -/
def Obligations.InitStartsSession : Prop :=
  ∀ (s : State) (b0 b1 b2 b3 b4 : Byte) (rest : List Byte),
    s.stream.drop s.pos = b0 :: b1 :: b2 :: b3 :: b4 :: rest → s.Answers 5 →
    exec .init s = .next { s with
      session := .ready ⟨0xFFFFFFFF#32,
        (b1.setWidth 32 <<< 24) ||| (b2.setWidth 32 <<< 16) ||| (b3.setWidth 32 <<< 8) ||| b4.setWidth 32⟩
      err := .ok
      pos := s.pos + 5
      answers := s.answers.map (· - 5)
      sourcePlaced := false
      result := 0#32
      flight := .responding ⟨.ok, 0#32⟩ }

/-- INIT with fewer than five bytes left and a source that says so (rules R53, R78, R82): StreamExhausted, the bytes
that were there stay consumed, no byte is made up. With a source that delivers `j < 5` of the bytes that are there
and no answer to the next request, INIT stays in flight, with the bytes taken and no register written
(rules R31 (c), R97; where it keeps its temporaries is the model's choice, log entry 22). -/
def Obligations.InitMeetsEndOfStream : Prop :=
  (∀ s : State, s.stream.length < s.pos + 5 → s.Answers (s.stream.length - s.pos + 1) →
    exec .init s = .next (afterFault .streamExhausted { s with
      pos := max s.pos s.stream.length
      answers := s.answers.map (· - (s.stream.length - s.pos)) })) ∧
  (∀ (s : State) (j : Nat), j < 5 → s.answers = some j → j ≤ s.stream.length - s.pos →
    ∃ code, exec .init s =
      .next { s with pos := s.pos + j, answers := some 0, flight := .waiting (.init (5 - j) code) })

/-- Normalize is one conditional step, decided by `RANGE < 0x01000000` (rule R54), with the three outcomes of BsRead
(rule R31). -/
def Obligations.NormalizeIsOneConditionalStep : Prop :=
  ∀ (c : Coder) (s : State),
    (0x01000000 ≤ c.range.toNat → runNormalize c s = .done c s) ∧
    (∀ b, c.range.toNat < 0x01000000 → s.Answers 1 → s.stream[s.pos]? = some b →
      runNormalize c s =
        .done ⟨c.range <<< 8, (c.code <<< 8) ||| b.setWidth 32⟩
          { s with pos := s.pos + 1, answers := s.answers.map (· - 1) }) ∧
    (c.range.toNat < 0x01000000 → s.Answers 1 → s.stream[s.pos]? = none →
      runNormalize c s = .raised .streamExhausted s) ∧
    (c.range.toNat < 0x01000000 → s.answers = some 0 → runNormalize c s = .waiting s)

/-- Normalize keeps `CODE < RANGE` (rule R54 corner case (e)). -/
def Obligations.NormalizeKeepsCodeBelowRange : Prop :=
  ∀ (c c' : Coder) (s s' : State), c.code < c.range → runNormalize c s = .done c' s' → c'.code < c'.range

/-! ### DECODE_BIT (spec/41_adaptive_bit.md) -/

/-- The state after DECODE_BIT, the two tables of rule R61, with everything else unchanged. -/
def Obligations.AdaptiveBitTable : Prop :=
  ∀ (s : State) (addr : Nat) (R C : Word) (p : Entry),
    s.session = .ready ⟨R, C⟩ → addr < s.probDepth → s.readEntry addr = p → p.toNat < 2048 →
    ∀ (B bit R' C' : Word) (p' : Entry), B = (R >>> 11) * p.setWidth 32 →
    ((C < B ∧ bit = 0#32 ∧ R' = B ∧ C' = C ∧ p' = p + ((2048#16 - p) >>> 5)) ∨
      (B ≤ C ∧ bit = 1#32 ∧ R' = R - B ∧ C' = C - B ∧ p' = p - (p >>> 5))) →
    (0x01000000 ≤ R'.toNat →
      exec (.decodeBit addr) s = .next { s with
        session := .ready ⟨R', C'⟩
        pm := Memory.write s.pm addr p'
        result := bit
        flight := .responding ⟨.ok, bit⟩ }) ∧
    (∀ x : Byte, R'.toNat < 0x01000000 → s.Answers 1 → s.stream[s.pos]? = some x →
      exec (.decodeBit addr) s = .next { s with
        session := .ready ⟨R' <<< 8, (C' <<< 8) ||| x.setWidth 32⟩
        pm := Memory.write s.pm addr p'
        pos := s.pos + 1
        answers := s.answers.map (· - 1)
        result := bit
        flight := .responding ⟨.ok, bit⟩ })

/-- DECODE_BIT whose Normalize needs a byte that does not come, the entry already holding its updated value (rules R57,
D14): at the end of the stream StreamExhausted (rule R78); with a source that does not answer, the command stays in
flight at its Normalize (rules R31 (c), R97; log entry 22 for where it keeps its temporaries). -/
def Obligations.AdaptiveBitMeetsEndOfStream : Prop :=
  ∀ (s : State) (addr : Nat) (R C B bit R' C' : Word) (p p' : Entry),
    s.session = .ready ⟨R, C⟩ → addr < s.probDepth → s.readEntry addr = p → p.toNat < 2048 →
    B = (R >>> 11) * p.setWidth 32 →
    ((C < B ∧ bit = 0#32 ∧ R' = B ∧ C' = C ∧ p' = p + ((2048#16 - p) >>> 5)) ∨
      (B ≤ C ∧ bit = 1#32 ∧ R' = R - B ∧ C' = C - B ∧ p' = p - (p >>> 5))) →
    R'.toNat < 0x01000000 →
    (s.stream[s.pos]? = none → s.Answers 1 →
      exec (.decodeBit addr) s = .next (afterFault .streamExhausted { s with pm := Memory.write s.pm addr p' })) ∧
    (s.answers = some 0 →
      exec (.decodeBit addr) s = .next { s with
        pm := Memory.write s.pm addr p'
        flight := .waiting (.normalize ⟨R', C'⟩ bit 0) })

/-- The two checks of DECODE_BIT, in their order, before anything changes (rule R56): only the fault of rule R82
happens, the entry and the Byte Source are as they were. No other check is made: an address inside the memory with
a legal entry is decoded, as far as the Byte Source answers (rule R97). -/
def Obligations.DecodeBitChecksFirst : Prop :=
  ∀ (s : State) (addr : Nat) (c : Coder), s.session = .ready c →
    (s.probDepth ≤ addr → exec (.decodeBit addr) s = .next { s with
      err := .fault .invalidIndex
      session := .failed
      result := 0#32
      flight := .responding ⟨.fault .invalidIndex, 0#32⟩ }) ∧
    (addr < s.probDepth → 2048 ≤ (s.readEntry addr).toNat → exec (.decodeBit addr) s = .next { s with
      err := .fault .probDomain
      session := .failed
      result := 0#32
      flight := .responding ⟨.fault .probDomain, 0#32⟩ }) ∧
    (addr < s.probDepth → (s.readEntry addr).toNat < 2048 → ∃ t, exec (.decodeBit addr) s = .next t ∧
      (AnsweredOk s t ∨ AnsweredFault .streamExhausted s t ∨ Unanswered s t))

/-- The frame of DECODE_BIT, whatever it answers: every entry but the one at `addr` reads as before, at most one
byte is taken, and the stream, the responses transferred, the host's moves, its reads and readiness and PROB_DEPTH
stay; if it succeeds, ERR stays (rules R37, R57). -/
def Obligations.DecodeBitFrame : Prop :=
  ∀ (s t : State) (addr : Nat), exec (.decodeBit addr) s = .next t →
    (∀ a, a ≠ addr → t.readEntry a = s.readEntry a) ∧
    s.pos ≤ t.pos ∧ t.pos ≤ s.pos + 1 ∧
    t.answers = s.answers.map (· - (t.pos - s.pos)) ∧ t.responses = s.responses ∧
    t.stream = s.stream ∧ t.host = s.host ∧ t.hostReads = s.hostReads ∧ t.probDepth = s.probDepth ∧
    t.accepts = s.accepts ∧ t.sourcePlaced = s.sourcePlaced ∧
    (AnsweredOk s t → t.err = s.err)

/-- Two DECODE_BIT on one address, back to back: the second finds the value the first wrote (rules R40 (b), R94),
which is the update of the value the first found (rule R57). -/
def Obligations.DecodeBitWritesWhatTheNextReads : Prop :=
  ∀ (s t : State) (addr : Nat), exec (.decodeBit addr) s = .next t → AnsweredOk s t →
    (t.result = 0#32 ∧ t.readEntry addr = s.readEntry addr + ((2048#16 - s.readEntry addr) >>> 5)) ∨
    (t.result = 1#32 ∧ t.readEntry addr = s.readEntry addr - (s.readEntry addr >>> 5))

/-- The only multiplication of the block is modulo 2^32, never wraps on a legal entry, and its product lies so far
below RANGE (rule R15). -/
def Obligations.SplitPointNeverWraps : Prop :=
  (∀ (R : Word) (p : Entry), (splitPoint R p).toNat = R.toNat / 2048 * p.toNat % 2 ^ 32) ∧
  ∀ (R : Word) (p : Entry), p.toNat < 2048 →
    (splitPoint R p).toNat = R.toNat / 2048 * p.toNat ∧
    (splitPoint R p).toNat ≤ R.toNat - R.toNat / 2048 ∧
    (2048 ≤ R.toNat → splitPoint R p < R) ∧
    (R.toNat < 2048 → splitPoint R p = 0#32)

/-- The properties of the entry update (rule R58). -/
def Obligations.EntryUpdateBand : Prop :=
  (∀ p : Entry, p.toNat < 2048 →
    p ≤ probUp p ∧ (probUp p).toNat ≤ 2047 ∧ probDown p ≤ p ∧
    (probUp p = p ↔ 2017 ≤ p.toNat) ∧ (probDown p = p ↔ p.toNat ≤ 31)) ∧
  (∀ p q : Entry, p ≤ q → q.toNat < 2048 → probUp p ≤ probUp q ∧ probDown p ≤ probDown q) ∧
  (∀ p : Entry, 31 ≤ p.toNat → p.toNat ≤ 2017 →
    31 ≤ (probUp p).toNat ∧ (probUp p).toNat ≤ 2017 ∧ 31 ≤ (probDown p).toNat ∧ (probDown p).toNat ≤ 2017) ∧
  probDown 32#16 = 31#16 ∧ probUp 2016#16 = 2017#16 ∧
  (∀ bits : List Bool,
    31 ≤ (bits.foldl (fun p b => if b then probDown p else probUp p) 1024#16).toNat ∧
    (bits.foldl (fun p b => if b then probDown p else probUp p) 1024#16).toNat ≤ 2017) ∧
  (∃ k, probUp^[k] 1024#16 = 2017#16) ∧ (∃ k, probDown^[k] 1024#16 = 31#16)

/-! ### DECODE_DIRECT_BITS (spec/42_direct_bits.md) -/

/-- Rule R62: a count above 32 faults before any state changes or any byte is read. -/
def Obligations.DirectBitsCountCheck : Prop :=
  ∀ (s : State) (n : Nat) (c : Coder), s.session = .ready c → 32 < n →
    exec (.decodeDirectBits n) s = .next { s with
      err := .fault .invalidCount
      session := .failed
      result := 0#32
      flight := .responding ⟨.fault .invalidCount, 0#32⟩ }

/-- A count of zero is legal and changes nothing but the response (rule R63 corner case (a), C8). -/
def Obligations.DirectBitsOfZero : Prop :=
  ∀ (s : State) (c : Coder), s.session = .ready c →
    exec (.decodeDirectBits 0) s = .next (afterOk 0#32 s)

/-- One iteration of the loop by its formula, for EVERY RANGE and CODE (rule R63), with its Normalize and the three
outcomes of BsRead (rule R31; log entry 22 for where a waiting command keeps its temporaries). -/
def Obligations.DirectBitFormula : Prop :=
  ∀ (s : State) (R C r t C' : Word), s.session = .ready ⟨R, C⟩ →
    r = R >>> 1 → t = (C - r) >>> 31 → C' = C - (r &&& (t - 1#32)) →
    (0x01000000 ≤ r.toNat →
      exec (.decodeDirectBits 1) s = .next (afterOk (1#32 - t) { s with session := .ready ⟨r, C'⟩ })) ∧
    (∀ x : Byte, r.toNat < 0x01000000 → s.Answers 1 → s.stream[s.pos]? = some x →
      exec (.decodeDirectBits 1) s = .next (afterOk (1#32 - t)
        { s with
          session := .ready ⟨r <<< 8, (C' <<< 8) ||| x.setWidth 32⟩
          pos := s.pos + 1
          answers := s.answers.map (· - 1) })) ∧
    (r.toNat < 0x01000000 → s.Answers 1 → s.stream[s.pos]? = none →
      exec (.decodeDirectBits 1) s = .next (afterFault .streamExhausted s)) ∧
    (r.toNat < 0x01000000 → s.answers = some 0 →
      exec (.decodeDirectBits 1) s = .next { s with flight := .waiting (.normalize ⟨r, C'⟩ (1#32 - t) 0) })

/-- The sign-bit test against the unsigned comparison, the three cases of rule R64; `r` is a halved RANGE. -/
def Obligations.SignBitAgainstComparison : Prop :=
  ∀ c r : Word, r.toNat ≤ 0x7FFFFFFF →
    (c < r → signBit c r = 1#32) ∧
    (r ≤ c → c.toNat < r.toNat + 2 ^ 31 → signBit c r = 0#32) ∧
    (r.toNat + 2 ^ 31 ≤ c.toNat → signBit c r = 1#32 ∧ 2 ^ 31 ≤ c.toNat) ∧
    (c.toNat ≤ 2 * r.toNat → c.toNat < r.toNat + 2 ^ 31)

/-- One direct bit inside the invariant `CODE < RANGE`, the table of rule R68 with its Normalize. -/
def Obligations.DirectBitTable : Prop :=
  ∀ (s : State) (R C r bit C' : Word), s.session = .ready ⟨R, C⟩ → C < R → r = R >>> 1 →
    ((C < r ∧ bit = 0#32 ∧ C' = C) ∨ (r ≤ C ∧ bit = 1#32 ∧ C' = C - r)) →
    (0x01000000 ≤ r.toNat →
      exec (.decodeDirectBits 1) s = .next (afterOk bit { s with session := .ready ⟨r, C'⟩ })) ∧
    (∀ x : Byte, r.toNat < 0x01000000 → s.Answers 1 → s.stream[s.pos]? = some x →
      exec (.decodeDirectBits 1) s = .next (afterOk bit
        { s with
          session := .ready ⟨r <<< 8, (C' <<< 8) ||| x.setWidth 32⟩
          pos := s.pos + 1
          answers := s.answers.map (· - 1) }))

/-- DECODE_DIRECT_BITS with a byte left, and an answer, for every iteration succeeds; without, it succeeds, meets the end
of the stream, or stays in flight at an unanswered request with the bytes taken that had come; and nothing but the
session registers, ERR, the cursor and the response changes (rules R31, R37, R55, R63, R78, R97). -/
def Obligations.DirectBitsOutcome : Prop :=
  ∀ (s : State) (n : Nat) (c : Coder), s.session = .ready c → n ≤ 32 →
    (s.pos + n ≤ s.stream.length → s.Answers n → ∃ (c' : Coder) (v : Word) (j : Nat), j ≤ n ∧
      exec (.decodeDirectBits n) s = .next (afterOk v
        { s with session := .ready c', pos := s.pos + j, answers := s.answers.map (· - j) })) ∧
    ((∃ (c' : Coder) (v : Word) (j : Nat), j ≤ n ∧
        exec (.decodeDirectBits n) s = .next (afterOk v
          { s with session := .ready c', pos := s.pos + j, answers := s.answers.map (· - j) })) ∨
      (s.stream.length < s.pos + n ∧
        exec (.decodeDirectBits n) s = .next (afterFault .streamExhausted
          { s with
            pos := max s.pos s.stream.length
            answers := s.answers.map (· - (s.stream.length - s.pos)) })) ∨
      (∃ (p : Pending) (j : Nat), j < n ∧ s.answers = some j ∧
        exec (.decodeDirectBits n) s =
          .next { s with pos := s.pos + j, answers := some 0, flight := .waiting p }))

/-- Rule R65: `n1` bits and then `n2` bits are `n1 + n2` bits, in both directions. -/
def Obligations.DirectBitsCompose : Prop :=
  ∀ (s : State) (n1 n2 : Nat), n1 + n2 ≤ 32 →
    (∀ t1 t2, exec (.decodeDirectBits n1) s = .next t1 → AnsweredOk s t1 →
      exec (.decodeDirectBits n2) t1 = .next t2 → AnsweredOk t1 t2 →
      ∃ t, exec (.decodeDirectBits (n1 + n2)) s = .next t ∧ AnsweredOk s t ∧ t.session = t2.session ∧
        t.pos = t2.pos ∧ t.result = (t1.result <<< n2) ||| t2.result) ∧
    (∀ t, exec (.decodeDirectBits (n1 + n2)) s = .next t → AnsweredOk s t →
      ∃ t1 t2, exec (.decodeDirectBits n1) s = .next t1 ∧ AnsweredOk s t1 ∧
        exec (.decodeDirectBits n2) t1 = .next t2 ∧ AnsweredOk t1 t2 ∧ t.session = t2.session ∧
        t.pos = t2.pos ∧ t.result = (t1.result <<< n2) ||| t2.result)

/-- Rule R66: the value is below `2^n`, and bit `n - 1 - k` of it is the bit of iteration `k`, `1 - t`. -/
def Obligations.DirectBitsValueBits : Prop :=
  ∀ (s t : State) (n : Nat), exec (.decodeDirectBits n) s = .next t → AnsweredOk s t →
    t.result.toNat < 2 ^ n ∧
    ∀ k, k < n → ∃ (t1 : State) (R C : Word), exec (.decodeDirectBits k) s = .next t1 ∧ AnsweredOk s t1 ∧
      t1.session = .ready ⟨R, C⟩ ∧
      (t.result >>> (n - 1 - k)) &&& 1#32 = 1#32 - ((C - (R >>> 1)) >>> 31)

/-- Rule R67: RANGE after the command and the number of bytes read depend on RANGE before it and on `n` alone; one
bit's RANGE; and RANGE stays at or above `TOP`. -/
def Obligations.DirectBitsRangeOblivious : Prop :=
  (∀ (s s' t t' : State) (n : Nat) (R C C' : Word), s.session = .ready ⟨R, C⟩ → s'.session = .ready ⟨R, C'⟩ →
    exec (.decodeDirectBits n) s = .next t → AnsweredOk s t →
    exec (.decodeDirectBits n) s' = .next t' → AnsweredOk s' t' →
    t.range = t'.range ∧ t.pos - s.pos = t'.pos - s'.pos) ∧
  (∀ (s t : State) (R C : Word), s.session = .ready ⟨R, C⟩ →
    exec (.decodeDirectBits 1) s = .next t → AnsweredOk s t →
    t.range = some (if (R >>> 1).toNat < 0x01000000 then (R >>> 1) <<< 8 else R >>> 1)) ∧
  (∀ (s t : State) (n : Nat) (c c' : Coder), s.session = .ready c → 0x01000000 ≤ c.range.toNat →
    exec (.decodeDirectBits n) s = .next t → t.session = .ready c' → 0x01000000 ≤ c'.range.toNat)

/-- Under the invariant `RANGE >= TOP`, `n` direct bits read at most `ceil(n / 8)` bytes (rule R55). -/
def Obligations.DirectBitsReadFewBytes : Prop :=
  ∀ (s t : State) (n : Nat) (c : Coder), s.session = .ready c → 0x01000000 ≤ c.range.toNat →
    exec (.decodeDirectBits n) s = .next t → AnsweredOk s t → t.pos - s.pos ≤ (n + 7) / 8

/-- Rule R69: the direct path neither reads nor writes a table, and PROB_DEPTH plays no part. -/
def Obligations.DirectPathHasNoTable : Prop :=
  ∀ (s t : State) (n d : Nat) (m : Memory), exec (.decodeDirectBits n) s = .next t →
    t.pm = s.pm ∧ t.probDepth = s.probDepth ∧
    exec (.decodeDirectBits n) { s with pm := m, probDepth := d } = .next { t with pm := m, probDepth := d }

/-- The frame of INIT and DECODE_DIRECT_BITS, whatever they answer: every entry reads as before, and the stream, the
responses transferred, the host's moves, its reads and readiness and PROB_DEPTH stay; ERR stays where
DECODE_DIRECT_BITS succeeds (rules R37, R53, R63). -/
def Obligations.ByteReadersFrame : Prop :=
  ∀ (s t : State) (i : Instr), (i = .init ∨ ∃ n, i = .decodeDirectBits n) → exec i s = .next t →
    (∀ a, t.readEntry a = s.readEntry a) ∧ s.pos ≤ t.pos ∧
    t.answers = s.answers.map (· - (t.pos - s.pos)) ∧ t.responses = s.responses ∧
    t.stream = s.stream ∧ t.host = s.host ∧ t.hostReads = s.hostReads ∧ t.probDepth = s.probDepth ∧
    t.accepts = s.accepts ∧
    (i ≠ .init → AnsweredOk s t → t.err = s.err)

/-! ### INIT_BIT_MODELS (spec/43_table_init.md) -/

/-- INIT_BIT_MODELS on a region that fits, in every session state (rules R70, R72): the region's entries read 1024,
every other entry as before, and nothing else changes but RESULT and the response. -/
def Obligations.TableInitSetsRegion : Prop :=
  ∀ (s : State) (base count : Nat), base + count ≤ s.probDepth →
    ∃ t, exec (.initBitModels base count) s = .next t ∧
      (∀ a, t.readEntry a = if base ≤ a ∧ a < base + count then 1024#16 else s.readEntry a) ∧
      t = afterOk 0#32 { s with pm := t.pm }

/-- INIT_BIT_MODELS on a region that does not fit: InvalidIndex on the sum as an integer, nothing written
(rules R70, R79). -/
def Obligations.TableInitChecksRegion : Prop :=
  ∀ (s : State) (base count : Nat), s.probDepth < base + count →
    exec (.initBitModels base count) s = .next (afterFault .invalidIndex s)

/-- Rule R71: the command never depends on what the memory held, and issuing it twice gives the memory of issuing it
once. -/
def Obligations.TableInitIdempotent : Prop :=
  ∀ (s t : State) (base count : Nat), exec (.initBitModels base count) s = .next t → AnsweredOk s t →
    (∀ a, base ≤ a → a < base + count → t.readEntry a = 1024#16) ∧
    (∀ m : Memory, ∃ t', exec (.initBitModels base count) { s with pm := m } = .next t' ∧
      AnsweredOk { s with pm := m } t' ∧ ∀ a, base ≤ a → a < base + count → t'.readEntry a = 1024#16) ∧
    (∃ t', exec (.initBitModels base count) t = .next t' ∧ AnsweredOk t t' ∧
      ∀ a, t'.readEntry a = t.readEntry a)

/-- Rule R72: executed in `UNINIT`, `READY` and `FAILED` alike; success resets the covered entries while RANGE, CODE,
`SESS` and ERR stay, a fault ends the session like every other. -/
def Obligations.TableInitLeavesSession : Prop :=
  ∀ (s : State) (base count : Nat),
    (base + count ≤ s.probDepth → ∃ t, exec (.initBitModels base count) s = .next t ∧ AnsweredOk s t ∧
      t.session = s.session ∧ t.err = s.err ∧ t.pos = s.pos ∧
      ∀ a, base ≤ a → a < base + count → t.readEntry a = 1024#16) ∧
    (s.probDepth < base + count →
      ∃ t, exec (.initBitModels base count) s = .next t ∧ AnsweredFault .invalidIndex s t ∧
        t.session = .failed ∧ t.err = if s.session = .failed then s.err else .fault .invalidIndex)

/-- Rule R73: on an initial entry the split point is half of RANGE rounded down to a multiple of 1024, and the
adaptive and the direct path decode different bits for some CODE. -/
def Obligations.FirstSplitIsNotTheDirectSplit : Prop :=
  probInit.toNat = modelTotal / 2 ∧
  (∀ R : Word, (splitPoint R 1024#16).toNat = R.toNat / 2 / 1024 * 1024) ∧
  (∃ R C : Word, (adaptiveSplit ⟨R, C⟩ 1024#16).bit = 1#32 ∧ 1#32 - directSign ⟨R, C⟩ = 0#32)

/-! ### Invariants, from every state that meets them -/

/-- The state after reset is sound (rules R9, R25, R29; log entries 2 and 3). -/
def Obligations.ResetIsSound : Prop := State.reset.Sound

/-- Every step, of a command or of any other move of the outside, keeps a state sound: the memory's list in the model's
canonical form (log entry 2) and inside `[0, PROB_DEPTH)`, PROB_DEPTH, which the model carries in State (log entry
3), legal, ERR 0 exactly when `SESS` is not `FAILED`, and the channels as rules R26, R31, R43, R54 and R97 leave
them between two moves (log entries 8 and 22). -/
def Obligations.StepKeepsSound : Prop := ∀ s t : State, s.Sound → step s = .next t → t.Sound

/-- Invariant (a) of rule R30: with every entry in `[8, 2040]`, every command keeps the entries there and RANGE at
`TOP` or above, also a command that waits for the Byte Source and is taken up again (rules R31 (c), R97). -/
def Obligations.RangeStaysAboveTop : Prop :=
  ∀ (s t : State) (i : Instr), s.EntriesWithin 8 2040 → s.RangeAboveTop → exec i s = .next t →
    (t.EntriesWithin 8 2040 ∧ t.RangeAboveTop) ∧
    ∀ (p : Pending) (m : Option Nat), t.flight = .waiting p →
      (resume p { t with answers := m }).EntriesWithin 8 2040 ∧ (resume p { t with answers := m }).RangeAboveTop

/-- Outside that band invariant (a) fails (rule R30, C3): with an entry of 7, or of 2041, one DECODE_BIT from RANGE
`0x01000000` leaves RANGE `0x00E00000`. -/
def Obligations.RangeFallsOutsideTheBand : Prop :=
  ∀ (s : State) (addr : Nat) (x : Byte), addr < s.probDepth → s.stream[s.pos]? = some x → s.Answers 1 →
    (s.session = .ready ⟨0x01000000#32, 0x00000000#32⟩ → s.readEntry addr = 7#16 →
      ∃ t, exec (.decodeBit addr) s = .next t ∧ t.range = some 0x00E00000#32) ∧
    (s.session = .ready ⟨0x01000000#32, 0x00FFFFFF#32⟩ → s.readEntry addr = 2041#16 →
      ∃ t, exec (.decodeBit addr) s = .next t ∧ t.range = some 0x00E00000#32)

/-- Entries that start in `[31, 2017]` stay there under every command (rules R30, R58). -/
def Obligations.EntriesStayInTheirBand : Prop :=
  ∀ (s t : State) (i : Instr), s.EntriesWithin 31 2017 → exec i s = .next t → t.EntriesWithin 31 2017

/-- Invariant (b) of rule R30, `CODE < RANGE`: kept by DECODE_BIT and by one direct bit but for the one case the rule
names, where CODE becomes RANGE before Normalize; established by INIT unless CODE is all ones. -/
def Obligations.CodeStaysBelowRange : Prop :=
  ∀ (s t : State) (c' : Coder), t.session = .ready c' →
    (∀ addr c, s.session = .ready c → c.code < c.range → exec (.decodeBit addr) s = .next t →
      c'.code < c'.range) ∧
    (∀ c, s.session = .ready c → c.code < c.range → ¬(c.range.toNat % 2 = 1 ∧ c.code = c.range - 1#32) →
      exec (.decodeDirectBits 1) s = .next t → c'.code < c'.range) ∧
    (∀ c, s.session = .ready c → c.range.toNat % 2 = 1 → c.code = c.range - 1#32 → 0x02000000 ≤ c.range.toNat →
      exec (.decodeDirectBits 1) s = .next t → c'.code = c'.range) ∧
    (exec .init s = .next t → AnsweredOk s t → c'.code ≠ 0xFFFFFFFF#32 → c'.code < c'.range)

/-- No operation reads RESULT (rule R26): whatever it holds, every command leads to the same state; a command that waits
for the Byte Source has not written it yet, and leads to the same state but for it. So the value RESULT has after
reset, the model's choice (log entry 5), cannot be observed. -/
def Obligations.ResultIsNeverRead : Prop :=
  ∀ (s : State) (i : Instr) (v : Word), ∃ t, exec i s = .next t ∧
    ((∀ p, t.flight ≠ .waiting p) → exec i { s with result := v } = .next t) ∧
    (∀ p, t.flight = .waiting p → t.result = s.result ∧ exec i { s with result := v } = .next { t with result := v })

/-- How many bytes a successful command takes (rule R55): INIT 5, DECODE_BIT at most 1, DECODE_DIRECT_BITS at most
`n`, INIT_BIT_MODELS none. -/
def Obligations.ByteAccounting : Prop :=
  ∀ (s t : State) (i : Instr), exec i s = .next t → AnsweredOk s t →
    match i with
    | .init => t.pos = s.pos + 5
    | .decodeBit _ => t.pos = s.pos ∨ t.pos = s.pos + 1
    | .decodeDirectBits n => s.pos ≤ t.pos ∧ t.pos ≤ s.pos + n
    | .initBitModels _ _ => t.pos = s.pos

/-! ### Reset and the host (spec/70_reset_and_hazards.md, spec/20_memory.md rule R38) -/

/-- What the spec says of the state after reset (rules R29, R90): `UNINIT`, ERR 0, RANGE and CODE hold no value, the
channels are empty (`cmd_ready` high, `rsp_valid` and `bs_ready` low). It says nothing of RESULT, whose value is the model's choice (log entry 5) and is not stated. -/
def Obligations.ResetState : Prop :=
  State.reset.sessOut = 0#2 ∧ State.reset.errOut = 0#4 ∧ State.reset.range = none ∧ State.reset.code = none ∧
  State.reset.cmdReady = true ∧ State.reset.rspValid = false ∧ State.reset.bsReady = false ∧
  State.reset.responses = []

/-- `rst` between two commands, or while one waits (rule R90): `UNINIT`, ERR 0, no response, and the probability memory
and the Byte Source are not touched. RESULT is not stated: its value is the model's choice (log entry 5). -/
def Obligations.ResetKeepsMemoryAndSource : Prop :=
  ∀ (s : State) (es : List HostEvent), s.host = .reset :: es →
    ∃ t, step s = .next t ∧ t.session = .uninit ∧ t.err = .ok ∧ t.host = es ∧
      (∀ a, t.readEntry a = s.readEntry a) ∧ t.stream = s.stream ∧ t.pos = s.pos ∧
      t.responses = s.responses ∧ t.hostReads = s.hostReads ∧ t.probDepth = s.probDepth

/-- `rst` in the middle of a command (rule R90, D25): no response; "the Byte Source bytes it had consumed stay consumed
and a probability entry it had written stays written". After how many transfers, and in which order they come, is
the model's choice (log entry 13): with none, nothing has changed; INIT and DECODE_DIRECT_BITS have taken the
first `k` of their bytes; DECODE_BIT has written its entry from its second transfer on and takes a byte after that;
INIT_BIT_MODELS has set its first `k` entries; and beyond the last transfer memory and cursor are as the whole
command leaves them. -/
def Obligations.ResetAbandonsCommand : Prop :=
  ∀ (s full : State) (w : CmdWord) (k : Nat) (es : List HostEvent), s.host = .resetDuring w k :: es →
    s.flight = .idle → step { s with host := .command w :: es } = .next full →
    ∃ t, step s = .next t ∧ t.session = .uninit ∧ t.err = .ok ∧ t.flight = .idle ∧ t.responses = s.responses ∧
      t.stream = s.stream ∧ t.probDepth = s.probDepth ∧ s.pos ≤ t.pos ∧ t.pos ≤ full.pos ∧
      (∀ a, t.readEntry a = s.readEntry a ∨ t.readEntry a = full.readEntry a) ∧
      (k = 0 → t.pos = s.pos ∧ ∀ a, t.readEntry a = s.readEntry a) ∧
      (∀ i, decode w = .ok i → (i = .init ∨ ∃ n, i = .decodeDirectBits n) →
        t.pos = s.pos + min k (full.pos - s.pos)) ∧
      (∀ addr, decode w = .ok (.decodeBit addr) →
        (k < 2 → t.pos = s.pos ∧ ∀ a, t.readEntry a = s.readEntry a) ∧
        (2 ≤ k → t.pos = s.pos + min (k - 2) (full.pos - s.pos) ∧ ∀ a, t.readEntry a = full.readEntry a)) ∧
      (∀ base count, decode w = .ok (.initBitModels base count) → base + count ≤ s.probDepth →
        ∀ a, t.readEntry a = if base ≤ a ∧ a < base + min k count then 1024#16 else s.readEntry a) ∧
      (∀ i, decode w = .ok i →
        (match i with
          | .init => 5
          | .decodeBit _ => 3
          | .decodeDirectBits n => n
          | .initBitModels _ count => count) ≤ k →
        t.pos = full.pos ∧ ∀ a, t.readEntry a = full.readEntry a)

/-- The host's own port of the probability memory (rules R33, R34, R38): a write replaces one entry and nothing else,
a read returns the entry and changes nothing. -/
def Obligations.HostPortReadsWhatWasWritten : Prop :=
  ∀ (s : State) (a : Nat) (v : Entry) (es : List HostEvent), a < s.probDepth → s.flight = .idle →
    (s.host = .writeEntry a v :: es → ∃ t, step s = .next t ∧ t.readEntry a = v ∧
      (∀ a', a' ≠ a → t.readEntry a' = s.readEntry a') ∧ t = { s with host := es, pm := t.pm }) ∧
    (s.host = .readEntry a :: es →
      step s = .next { s with host := es, hostReads := s.hostReads ++ [s.readEntry a] }) ∧
    (s.host = .writeEntry a v :: .readEntry a :: es → ∃ t u, step s = .next t ∧ step t = .next u ∧
      u.hostReads = s.hostReads ++ [v])

/-- The model's choice (log entry 11), from rule R39: the host's port reaches nothing outside `[0, PROB_DEPTH)`. -/
def Obligations.HostPortStopsOutsideMemory : Prop :=
  ∀ (s : State) (a : Nat) (es : List HostEvent), s.probDepth ≤ a → s.flight = .idle →
    (∀ v, s.host = .writeEntry a v :: es → step s = .fault .hostAddress) ∧
    (s.host = .readEntry a :: es → step s = .fault .hostAddress)

/-- The host places the Byte Source's cursor in every session state (rules R85, R92), and a session begins there with
INIT, also from `READY`, where the old one needs no close (rules R53, R98). That the model has no move for a decode
command that goes on with the session left behind is rule R95 and treatment U17 as log entry 10 reads them. -/
def Obligations.SourceIsPlacedForNewSession : Prop :=
  (∀ (s : State) (p : Nat) (es : List HostEvent), s.host = .positionSource p :: es → s.flight = .idle →
    step s = .next { s with host := es, pos := p, sourcePlaced := true }) ∧
  (∀ (s : State) (p : Nat) (w : CmdWord) (es : List HostEvent) (b0 b1 b2 b3 b4 : Byte) (rest : List Byte),
    s.host = .positionSource p :: .command w :: es → s.flight = .idle → decode w = .ok .init →
    s.stream.drop p = b0 :: b1 :: b2 :: b3 :: b4 :: rest → s.Answers 5 →
    ∃ t u c, step s = .next t ∧ step t = .next u ∧ u.session = .ready c ∧ u.err = .ok ∧ u.pos = p + 5 ∧
      u.sourcePlaced = false ∧ u.host = es) ∧
  (∀ (s : State) (w : CmdWord) (es : List HostEvent) (i : Instr) (c : Coder), s.host = .command w :: es →
    s.flight = .idle → decode w = .ok i → isDecodeCommand i = true → s.session = .ready c →
    s.sourcePlaced = true → step s = .refused .sourceMovedDuringSession)

/-! ### Pseudo-commands (spec/30_encoding.md rule R51) -/

/-- `InitBitModels(T)`: what it expands to sets every entry of `T` to 1024 and no other entry, also for a table of
65536 entries, which takes two commands. -/
def Obligations.PseudoInitSetsTable : Prop :=
  ∀ (s : State) (T : Table), T.base + T.size ≤ s.probDepth → s.probDepth ≤ 65536 →
    ∃ t, execAll (expand (.initBitModels T)) s = .next t ∧
      ∀ a, t.readEntry a = if T.base ≤ a ∧ a < T.base + T.size then 1024#16 else s.readEntry a

/-- `DecodeDirectBits(n)`: the commands it expands to have legal counts that sum to `n`. -/
def Obligations.PseudoDirectCountsSum : Prop :=
  ∀ n : Nat, ∃ counts : List Nat, expand (.decodeDirectBits n) = counts.map Instr.decodeDirectBits ∧
    counts.sum = n ∧ counts ≠ [] ∧ ∀ k ∈ counts, k ≤ 32
end

