-- ==== Sys2Proof/Laws/PerInstr.lean ====
section
/-! SUPPORT. Statements made per instruction, over its syntax alone: the word of a command selects the command's own
row of the opcode map (spec/30_encoding.md rule R47). -/

namespace Sys2Proof.Laws

/-- Masking `k` bits from bit `n` up keeps exactly those bits of a number. -/
theorem and_field_mask (x n k : Nat) : x &&& ((2 ^ k - 1) <<< n) = x / 2 ^ n % 2 ^ k * 2 ^ n := by
  rw [← Nat.shiftLeft_eq, ← Nat.shiftRight_eq_div_pow]
  apply Nat.eq_of_testBit_eq
  intro i
  simp only [Nat.testBit_and, Nat.testBit_shiftLeft, Nat.testBit_two_pow_sub_one, Nat.testBit_mod_two_pow,
    Nat.testBit_shiftRight]
  by_cases h : n ≤ i
  · simp [h, Bool.and_comm, show n + (i - n) = i by omega]
  · simp [h]

/-- The number a masked command word is, for the mask of bits `n` to `n + k - 1`. -/
theorem toNat_and_mask (w mask : CmdWord) (n k : Nat) (h : mask.toNat = (2 ^ k - 1) <<< n) :
    (w &&& mask).toNat = w.toNat / 2 ^ n % 2 ^ k * 2 ^ n := by
  rw [BitVec.toNat_and, h, and_field_mask]

/-- The number a command word is. -/
theorem cmdWord_toNat (op a b : Nat) (h : op < 256) :
    (cmdWord op a b).toNat = op * 2 ^ 32 + a % 2 ^ 16 * 2 ^ 16 + b % 2 ^ 16 := by
  unfold cmdWord
  rw [BitVec.toNat_ofNat]
  omega

/-- The family: a command's word selects the command's row. -/
def RowOfEncoding.Statement (i : Instr) : Prop := OpcodeRow.selects (Instr.row i) (encode i)

theorem RowOfEncoding.init : RowOfEncoding.Statement .init := by
  unfold RowOfEncoding.Statement OpcodeRow.selects; decide

theorem RowOfEncoding.decodeBit (addr : Nat) : RowOfEncoding.Statement (.decodeBit addr) := by
  apply BitVec.eq_of_toNat_eq
  rw [toNat_and_mask _ _ 16 24 rfl]
  simp only [encode, Instr.row, cmdWord_toNat 2 0 addr (by decide)]
  change _ = 0x0200000000
  omega

theorem RowOfEncoding.decodeDirectBits (n : Nat) : RowOfEncoding.Statement (.decodeDirectBits n) := by
  apply BitVec.eq_of_toNat_eq
  rw [toNat_and_mask _ _ 16 24 rfl]
  simp only [encode, Instr.row, cmdWord_toNat 3 0 n (by decide)]
  change _ = 0x0300000000
  omega

theorem RowOfEncoding.initBitModels (base count : Nat) : RowOfEncoding.Statement (.initBitModels base count) := by
  apply BitVec.eq_of_toNat_eq
  rw [toNat_and_mask _ _ 32 8 rfl]
  simp only [encode, Instr.row, cmdWord_toNat 4 count base (by decide)]
  change _ = 0x0400000000
  omega

end Sys2Proof.Laws
end

