-- ==== Sys2Proof/Laws/Arith.lean ====
section
/-! SUPPORT. The operand arithmetic and the three decisions as numbers: one lemma for each function of
Operands.lean and Flags.lean, so that a proof goes on by omega. -/

namespace Sys2Proof.Machine

open Sys2Proof.Laws

/-- The test of Normalize is `RANGE < TOP` (rule R54). -/
theorem topByteZero_iff (r : Word) : topByteZero r = true ↔ r.toNat < 0x01000000 := by
  unfold topByteZero
  rw [decide_eq_true_iff, ← BitVec.toNat_inj, BitVec.toNat_and]
  have := and_field_mask r.toNat 24 8
  change r.toNat &&& 0xFF000000 = 0 ↔ _
  rw [show (0xFF000000:Nat) = (2^8-1) <<< 24 by decide, this]
  have := r.isLt
  omega

/-- A byte shifted into CODE (rules R16, R54). -/
theorem shiftIn_toNat (c : Word) (b : Byte) : (shiftIn c b).toNat = c.toNat * 256 % 2^32 + b.toNat := by
  unfold shiftIn
  rw [BitVec.toNat_or, BitVec.toNat_shiftLeft, BitVec.toNat_setWidth, Nat.shiftLeft_eq]
  have hb := b.isLt
  rw [Nat.mod_eq_of_lt (show b.toNat < 2^32 by omega)]
  have : c.toNat * 2^8 % 2^32 = 2^8 * (c.toNat % 2^24) := by omega
  rw [this, ← Nat.two_pow_add_eq_or_of_lt hb]
  omega

/-- The split point modulo 2^32 (rule R15). -/
theorem splitPoint_toNat (R : Word) (p : Entry) : (splitPoint R p).toNat = R.toNat / 2048 * p.toNat % 2 ^ 32 := by
  unfold splitPoint
  rw [BitVec.toNat_mul, BitVec.toNat_ushiftRight, BitVec.toNat_setWidth, Nat.shiftRight_eq_div_pow]
  have := p.isLt
  rw [Nat.mod_eq_of_lt (show p.toNat < 2^32 by omega)]

/-- The entry after a 0 bit (rules R18, R57). -/
theorem probUp_toNat (p : Entry) (h : p.toNat ≤ 2048) : (probUp p).toNat = p.toNat + (2048 - p.toNat)/32 := by
  unfold probUp
  rw [BitVec.toNat_add, BitVec.toNat_ushiftRight, BitVec.toNat_sub, Nat.shiftRight_eq_div_pow]
  simp; omega

/-- The entry after a 1 bit (rules R18, R57). -/
theorem probDown_toNat (p : Entry) : (probDown p).toNat = p.toNat - p.toNat/32 := by
  unfold probDown
  have := p.isLt
  rw [BitVec.toNat_sub, BitVec.toNat_ushiftRight, Nat.shiftRight_eq_div_pow]
  simp; omega

/-- The sign bit of the 32-bit difference (rule R64). -/
theorem signBit_toNat (c r : Word) : (signBit c r).toNat = (c.toNat + (2^32 - r.toNat)) % 2^32 / 2^31 := by
  unfold signBit
  rw [BitVec.toNat_ushiftRight, BitVec.toNat_sub, Nat.shiftRight_eq_div_pow, Nat.add_comm]

/-- The halving of RANGE (rule R63). -/
theorem half_toNat (R : Word) : (R >>> 1).toNat = R.toNat / 2 := by
  rw [BitVec.toNat_ushiftRight, Nat.shiftRight_eq_div_pow]

end Sys2Proof.Machine
end

