-- ==== Sys2Proof/Laws/State.lean ====
section
/-! SUPPORT. One lemma per field of State for each named update of Machine/Ops.lean, so that no proof unfolds a
record update. -/

namespace Sys2Proof.Machine

@[simp] theorem State.respond_session (s : State) (status : Status) (value : Word) :
    (State.respond s status value).session = s.session := rfl
@[simp] theorem State.respond_err (s : State) (status : Status) (value : Word) :
    (State.respond s status value).err = s.err := rfl
@[simp] theorem State.respond_result (s : State) (status : Status) (value : Word) :
    (State.respond s status value).result = value := rfl
@[simp] theorem State.respond_pm (s : State) (status : Status) (value : Word) :
    (State.respond s status value).pm = s.pm := rfl
@[simp] theorem State.respond_stream (s : State) (status : Status) (value : Word) :
    (State.respond s status value).stream = s.stream := rfl
@[simp] theorem State.respond_pos (s : State) (status : Status) (value : Word) :
    (State.respond s status value).pos = s.pos := rfl
@[simp] theorem State.respond_answers (s : State) (status : Status) (value : Word) :
    (State.respond s status value).answers = s.answers := rfl
@[simp] theorem State.respond_sourcePlaced (s : State) (status : Status) (value : Word) :
    (State.respond s status value).sourcePlaced = s.sourcePlaced := rfl
@[simp] theorem State.respond_flight (s : State) (status : Status) (value : Word) :
    (State.respond s status value).flight = .responding ⟨status, value⟩ := rfl
@[simp] theorem State.respond_accepts (s : State) (status : Status) (value : Word) :
    (State.respond s status value).accepts = s.accepts := rfl
@[simp] theorem State.respond_host (s : State) (status : Status) (value : Word) :
    (State.respond s status value).host = s.host := rfl
@[simp] theorem State.respond_responses (s : State) (status : Status) (value : Word) :
    (State.respond s status value).responses = s.responses := rfl
@[simp] theorem State.respond_hostReads (s : State) (status : Status) (value : Word) :
    (State.respond s status value).hostReads = s.hostReads := rfl
@[simp] theorem State.respond_probDepth (s : State) (status : Status) (value : Word) :
    (State.respond s status value).probDepth = s.probDepth := rfl

@[simp] theorem State.raise_session (s : State) (f : FaultCode) :
    (State.raise s f).session = .failed := rfl
@[simp] theorem State.raise_err (s : State) (f : FaultCode) :
    (State.raise s f).err = State.errAfter s f := rfl
@[simp] theorem State.raise_result (s : State) (f : FaultCode) :
    (State.raise s f).result = 0#32 := rfl
@[simp] theorem State.raise_pm (s : State) (f : FaultCode) :
    (State.raise s f).pm = s.pm := rfl
@[simp] theorem State.raise_stream (s : State) (f : FaultCode) :
    (State.raise s f).stream = s.stream := rfl
@[simp] theorem State.raise_pos (s : State) (f : FaultCode) :
    (State.raise s f).pos = s.pos := rfl
@[simp] theorem State.raise_answers (s : State) (f : FaultCode) :
    (State.raise s f).answers = s.answers := rfl
@[simp] theorem State.raise_sourcePlaced (s : State) (f : FaultCode) :
    (State.raise s f).sourcePlaced = s.sourcePlaced := rfl
@[simp] theorem State.raise_flight (s : State) (f : FaultCode) :
    (State.raise s f).flight = .responding ⟨.fault f, 0#32⟩ := rfl
@[simp] theorem State.raise_accepts (s : State) (f : FaultCode) :
    (State.raise s f).accepts = s.accepts := rfl
@[simp] theorem State.raise_host (s : State) (f : FaultCode) :
    (State.raise s f).host = s.host := rfl
@[simp] theorem State.raise_responses (s : State) (f : FaultCode) :
    (State.raise s f).responses = s.responses := rfl
@[simp] theorem State.raise_hostReads (s : State) (f : FaultCode) :
    (State.raise s f).hostReads = s.hostReads := rfl
@[simp] theorem State.raise_probDepth (s : State) (f : FaultCode) :
    (State.raise s f).probDepth = s.probDepth := rfl

@[simp] theorem State.complete_session (s : State) (c : Coder) (value : Word) :
    (State.complete s c value).session = .ready c := rfl
@[simp] theorem State.complete_err (s : State) (c : Coder) (value : Word) :
    (State.complete s c value).err = s.err := rfl
@[simp] theorem State.complete_result (s : State) (c : Coder) (value : Word) :
    (State.complete s c value).result = value := rfl
@[simp] theorem State.complete_pm (s : State) (c : Coder) (value : Word) :
    (State.complete s c value).pm = s.pm := rfl
@[simp] theorem State.complete_stream (s : State) (c : Coder) (value : Word) :
    (State.complete s c value).stream = s.stream := rfl
@[simp] theorem State.complete_pos (s : State) (c : Coder) (value : Word) :
    (State.complete s c value).pos = s.pos := rfl
@[simp] theorem State.complete_answers (s : State) (c : Coder) (value : Word) :
    (State.complete s c value).answers = s.answers := rfl
@[simp] theorem State.complete_sourcePlaced (s : State) (c : Coder) (value : Word) :
    (State.complete s c value).sourcePlaced = s.sourcePlaced := rfl
@[simp] theorem State.complete_flight (s : State) (c : Coder) (value : Word) :
    (State.complete s c value).flight = .responding ⟨.ok, value⟩ := rfl
@[simp] theorem State.complete_accepts (s : State) (c : Coder) (value : Word) :
    (State.complete s c value).accepts = s.accepts := rfl
@[simp] theorem State.complete_host (s : State) (c : Coder) (value : Word) :
    (State.complete s c value).host = s.host := rfl
@[simp] theorem State.complete_responses (s : State) (c : Coder) (value : Word) :
    (State.complete s c value).responses = s.responses := rfl
@[simp] theorem State.complete_hostReads (s : State) (c : Coder) (value : Word) :
    (State.complete s c value).hostReads = s.hostReads := rfl
@[simp] theorem State.complete_probDepth (s : State) (c : Coder) (value : Word) :
    (State.complete s c value).probDepth = s.probDepth := rfl

@[simp] theorem State.startSession_session (s : State) (c : Coder) :
    (State.startSession s c).session = .ready c := rfl
@[simp] theorem State.startSession_err (s : State) (c : Coder) :
    (State.startSession s c).err = .ok := rfl
@[simp] theorem State.startSession_result (s : State) (c : Coder) :
    (State.startSession s c).result = 0#32 := rfl
@[simp] theorem State.startSession_pm (s : State) (c : Coder) :
    (State.startSession s c).pm = s.pm := rfl
@[simp] theorem State.startSession_stream (s : State) (c : Coder) :
    (State.startSession s c).stream = s.stream := rfl
@[simp] theorem State.startSession_pos (s : State) (c : Coder) :
    (State.startSession s c).pos = s.pos := rfl
@[simp] theorem State.startSession_answers (s : State) (c : Coder) :
    (State.startSession s c).answers = s.answers := rfl
@[simp] theorem State.startSession_sourcePlaced (s : State) (c : Coder) :
    (State.startSession s c).sourcePlaced = false := rfl
@[simp] theorem State.startSession_flight (s : State) (c : Coder) :
    (State.startSession s c).flight = .responding ⟨.ok, 0#32⟩ := rfl
@[simp] theorem State.startSession_accepts (s : State) (c : Coder) :
    (State.startSession s c).accepts = s.accepts := rfl
@[simp] theorem State.startSession_host (s : State) (c : Coder) :
    (State.startSession s c).host = s.host := rfl
@[simp] theorem State.startSession_responses (s : State) (c : Coder) :
    (State.startSession s c).responses = s.responses := rfl
@[simp] theorem State.startSession_hostReads (s : State) (c : Coder) :
    (State.startSession s c).hostReads = s.hostReads := rfl
@[simp] theorem State.startSession_probDepth (s : State) (c : Coder) :
    (State.startSession s c).probDepth = s.probDepth := rfl

@[simp] theorem State.wait_session (s : State) (p : Pending) :
    (State.wait s p).session = s.session := rfl
@[simp] theorem State.wait_err (s : State) (p : Pending) :
    (State.wait s p).err = s.err := rfl
@[simp] theorem State.wait_result (s : State) (p : Pending) :
    (State.wait s p).result = s.result := rfl
@[simp] theorem State.wait_pm (s : State) (p : Pending) :
    (State.wait s p).pm = s.pm := rfl
@[simp] theorem State.wait_stream (s : State) (p : Pending) :
    (State.wait s p).stream = s.stream := rfl
@[simp] theorem State.wait_pos (s : State) (p : Pending) :
    (State.wait s p).pos = s.pos := rfl
@[simp] theorem State.wait_answers (s : State) (p : Pending) :
    (State.wait s p).answers = s.answers := rfl
@[simp] theorem State.wait_sourcePlaced (s : State) (p : Pending) :
    (State.wait s p).sourcePlaced = s.sourcePlaced := rfl
@[simp] theorem State.wait_flight (s : State) (p : Pending) :
    (State.wait s p).flight = .waiting p := rfl
@[simp] theorem State.wait_accepts (s : State) (p : Pending) :
    (State.wait s p).accepts = s.accepts := rfl
@[simp] theorem State.wait_host (s : State) (p : Pending) :
    (State.wait s p).host = s.host := rfl
@[simp] theorem State.wait_responses (s : State) (p : Pending) :
    (State.wait s p).responses = s.responses := rfl
@[simp] theorem State.wait_hostReads (s : State) (p : Pending) :
    (State.wait s p).hostReads = s.hostReads := rfl
@[simp] theorem State.wait_probDepth (s : State) (p : Pending) :
    (State.wait s p).probDepth = s.probDepth := rfl

@[simp] theorem State.resetBlock_session (s : State) :
    (State.resetBlock s).session = .uninit := rfl
@[simp] theorem State.resetBlock_err (s : State) :
    (State.resetBlock s).err = .ok := rfl
@[simp] theorem State.resetBlock_result (s : State) :
    (State.resetBlock s).result = resetResult := rfl
@[simp] theorem State.resetBlock_pm (s : State) :
    (State.resetBlock s).pm = s.pm := rfl
@[simp] theorem State.resetBlock_stream (s : State) :
    (State.resetBlock s).stream = s.stream := rfl
@[simp] theorem State.resetBlock_pos (s : State) :
    (State.resetBlock s).pos = s.pos := rfl
@[simp] theorem State.resetBlock_answers (s : State) :
    (State.resetBlock s).answers = s.answers := rfl
@[simp] theorem State.resetBlock_sourcePlaced (s : State) :
    (State.resetBlock s).sourcePlaced = s.sourcePlaced := rfl
@[simp] theorem State.resetBlock_flight (s : State) :
    (State.resetBlock s).flight = .idle := rfl
@[simp] theorem State.resetBlock_accepts (s : State) :
    (State.resetBlock s).accepts = s.accepts := rfl
@[simp] theorem State.resetBlock_host (s : State) :
    (State.resetBlock s).host = s.host := rfl
@[simp] theorem State.resetBlock_responses (s : State) :
    (State.resetBlock s).responses = s.responses := rfl
@[simp] theorem State.resetBlock_hostReads (s : State) :
    (State.resetBlock s).hostReads = s.hostReads := rfl
@[simp] theorem State.resetBlock_probDepth (s : State) :
    (State.resetBlock s).probDepth = s.probDepth := rfl

@[simp] theorem State.takeBytes_session (s : State) (k : Nat) :
    (State.takeBytes s k).session = s.session := rfl
@[simp] theorem State.takeBytes_err (s : State) (k : Nat) :
    (State.takeBytes s k).err = s.err := rfl
@[simp] theorem State.takeBytes_result (s : State) (k : Nat) :
    (State.takeBytes s k).result = s.result := rfl
@[simp] theorem State.takeBytes_pm (s : State) (k : Nat) :
    (State.takeBytes s k).pm = s.pm := rfl
@[simp] theorem State.takeBytes_stream (s : State) (k : Nat) :
    (State.takeBytes s k).stream = s.stream := rfl
@[simp] theorem State.takeBytes_pos (s : State) (k : Nat) :
    (State.takeBytes s k).pos = s.pos + k := rfl
@[simp] theorem State.takeBytes_answers (s : State) (k : Nat) :
    (State.takeBytes s k).answers = s.answers.map (· - k) := rfl
@[simp] theorem State.takeBytes_sourcePlaced (s : State) (k : Nat) :
    (State.takeBytes s k).sourcePlaced = s.sourcePlaced := rfl
@[simp] theorem State.takeBytes_flight (s : State) (k : Nat) :
    (State.takeBytes s k).flight = s.flight := rfl
@[simp] theorem State.takeBytes_accepts (s : State) (k : Nat) :
    (State.takeBytes s k).accepts = s.accepts := rfl
@[simp] theorem State.takeBytes_host (s : State) (k : Nat) :
    (State.takeBytes s k).host = s.host := rfl
@[simp] theorem State.takeBytes_responses (s : State) (k : Nat) :
    (State.takeBytes s k).responses = s.responses := rfl
@[simp] theorem State.takeBytes_hostReads (s : State) (k : Nat) :
    (State.takeBytes s k).hostReads = s.hostReads := rfl
@[simp] theorem State.takeBytes_probDepth (s : State) (k : Nat) :
    (State.takeBytes s k).probDepth = s.probDepth := rfl

@[simp] theorem State.writeEntry_session (s : State) (a : Nat) (v : Entry) :
    (State.writeEntry s a v).session = s.session := rfl
@[simp] theorem State.writeEntry_err (s : State) (a : Nat) (v : Entry) :
    (State.writeEntry s a v).err = s.err := rfl
@[simp] theorem State.writeEntry_result (s : State) (a : Nat) (v : Entry) :
    (State.writeEntry s a v).result = s.result := rfl
@[simp] theorem State.writeEntry_pm (s : State) (a : Nat) (v : Entry) :
    (State.writeEntry s a v).pm = Memory.write s.pm a v := rfl
@[simp] theorem State.writeEntry_stream (s : State) (a : Nat) (v : Entry) :
    (State.writeEntry s a v).stream = s.stream := rfl
@[simp] theorem State.writeEntry_pos (s : State) (a : Nat) (v : Entry) :
    (State.writeEntry s a v).pos = s.pos := rfl
@[simp] theorem State.writeEntry_answers (s : State) (a : Nat) (v : Entry) :
    (State.writeEntry s a v).answers = s.answers := rfl
@[simp] theorem State.writeEntry_sourcePlaced (s : State) (a : Nat) (v : Entry) :
    (State.writeEntry s a v).sourcePlaced = s.sourcePlaced := rfl
@[simp] theorem State.writeEntry_flight (s : State) (a : Nat) (v : Entry) :
    (State.writeEntry s a v).flight = s.flight := rfl
@[simp] theorem State.writeEntry_accepts (s : State) (a : Nat) (v : Entry) :
    (State.writeEntry s a v).accepts = s.accepts := rfl
@[simp] theorem State.writeEntry_host (s : State) (a : Nat) (v : Entry) :
    (State.writeEntry s a v).host = s.host := rfl
@[simp] theorem State.writeEntry_responses (s : State) (a : Nat) (v : Entry) :
    (State.writeEntry s a v).responses = s.responses := rfl
@[simp] theorem State.writeEntry_hostReads (s : State) (a : Nat) (v : Entry) :
    (State.writeEntry s a v).hostReads = s.hostReads := rfl
@[simp] theorem State.writeEntry_probDepth (s : State) (a : Nat) (v : Entry) :
    (State.writeEntry s a v).probDepth = s.probDepth := rfl

@[simp] theorem State.fillEntries_session (s : State) (base count : Nat) (v : Entry) :
    (State.fillEntries s base count v).session = s.session := rfl
@[simp] theorem State.fillEntries_err (s : State) (base count : Nat) (v : Entry) :
    (State.fillEntries s base count v).err = s.err := rfl
@[simp] theorem State.fillEntries_result (s : State) (base count : Nat) (v : Entry) :
    (State.fillEntries s base count v).result = s.result := rfl
@[simp] theorem State.fillEntries_pm (s : State) (base count : Nat) (v : Entry) :
    (State.fillEntries s base count v).pm = Memory.fill s.pm base count v := rfl
@[simp] theorem State.fillEntries_stream (s : State) (base count : Nat) (v : Entry) :
    (State.fillEntries s base count v).stream = s.stream := rfl
@[simp] theorem State.fillEntries_pos (s : State) (base count : Nat) (v : Entry) :
    (State.fillEntries s base count v).pos = s.pos := rfl
@[simp] theorem State.fillEntries_answers (s : State) (base count : Nat) (v : Entry) :
    (State.fillEntries s base count v).answers = s.answers := rfl
@[simp] theorem State.fillEntries_sourcePlaced (s : State) (base count : Nat) (v : Entry) :
    (State.fillEntries s base count v).sourcePlaced = s.sourcePlaced := rfl
@[simp] theorem State.fillEntries_flight (s : State) (base count : Nat) (v : Entry) :
    (State.fillEntries s base count v).flight = s.flight := rfl
@[simp] theorem State.fillEntries_accepts (s : State) (base count : Nat) (v : Entry) :
    (State.fillEntries s base count v).accepts = s.accepts := rfl
@[simp] theorem State.fillEntries_host (s : State) (base count : Nat) (v : Entry) :
    (State.fillEntries s base count v).host = s.host := rfl
@[simp] theorem State.fillEntries_responses (s : State) (base count : Nat) (v : Entry) :
    (State.fillEntries s base count v).responses = s.responses := rfl
@[simp] theorem State.fillEntries_hostReads (s : State) (base count : Nat) (v : Entry) :
    (State.fillEntries s base count v).hostReads = s.hostReads := rfl
@[simp] theorem State.fillEntries_probDepth (s : State) (base count : Nat) (v : Entry) :
    (State.fillEntries s base count v).probDepth = s.probDepth := rfl

/-- Everything a transfer can do (rule R43): nothing, or the pending response is taken. -/
theorem State.deliver_cases (s : State) :
    State.deliver s = s ∨ ∃ r, s.flight = .responding r ∧ s.accepts = true ∧
      State.deliver s = { s with flight := .idle, responses := s.responses ++ [r] } := by
  unfold State.deliver
  split
  · split
    · exact .inr ⟨_, ‹_›, ‹_›, rfl⟩
    · exact .inl rfl
  · exact .inl rfl

@[simp] theorem State.deliver_session (s : State) : (State.deliver s).session = s.session := by
  rcases State.deliver_cases s with h | ⟨r, -, -, h⟩ <;> rw [h]
@[simp] theorem State.deliver_err (s : State) : (State.deliver s).err = s.err := by
  rcases State.deliver_cases s with h | ⟨r, -, -, h⟩ <;> rw [h]
@[simp] theorem State.deliver_result (s : State) : (State.deliver s).result = s.result := by
  rcases State.deliver_cases s with h | ⟨r, -, -, h⟩ <;> rw [h]
@[simp] theorem State.deliver_pm (s : State) : (State.deliver s).pm = s.pm := by
  rcases State.deliver_cases s with h | ⟨r, -, -, h⟩ <;> rw [h]
@[simp] theorem State.deliver_stream (s : State) : (State.deliver s).stream = s.stream := by
  rcases State.deliver_cases s with h | ⟨r, -, -, h⟩ <;> rw [h]
@[simp] theorem State.deliver_pos (s : State) : (State.deliver s).pos = s.pos := by
  rcases State.deliver_cases s with h | ⟨r, -, -, h⟩ <;> rw [h]
@[simp] theorem State.deliver_answers (s : State) : (State.deliver s).answers = s.answers := by
  rcases State.deliver_cases s with h | ⟨r, -, -, h⟩ <;> rw [h]
@[simp] theorem State.deliver_sourcePlaced (s : State) : (State.deliver s).sourcePlaced = s.sourcePlaced := by
  rcases State.deliver_cases s with h | ⟨r, -, -, h⟩ <;> rw [h]
@[simp] theorem State.deliver_accepts (s : State) : (State.deliver s).accepts = s.accepts := by
  rcases State.deliver_cases s with h | ⟨r, -, -, h⟩ <;> rw [h]
@[simp] theorem State.deliver_host (s : State) : (State.deliver s).host = s.host := by
  rcases State.deliver_cases s with h | ⟨r, -, -, h⟩ <;> rw [h]
@[simp] theorem State.deliver_hostReads (s : State) : (State.deliver s).hostReads = s.hostReads := by
  rcases State.deliver_cases s with h | ⟨r, -, -, h⟩ <;> rw [h]
@[simp] theorem State.deliver_probDepth (s : State) : (State.deliver s).probDepth = s.probDepth := by
  rcases State.deliver_cases s with h | ⟨r, -, -, h⟩ <;> rw [h]

/-- No byte taken. -/
@[simp] theorem State.takeBytes_zero (s : State) : State.takeBytes s 0 = s := by
  cases s; simp [State.takeBytes]

/-- Bytes taken one after the other. -/
theorem State.takeBytes_takeBytes (s : State) (j k : Nat) :
    State.takeBytes (State.takeBytes s j) k = State.takeBytes s (j + k) := by
  simp [State.takeBytes, Nat.add_assoc, Nat.sub_sub, Function.comp_def]

/-- A fault in `FAILED` keeps ERR (rules R25, R86). -/
theorem State.errAfter_failed (s : State) (f : FaultCode) (h : s.session = .failed) :
    State.errAfter s f = s.err := by
  unfold State.errAfter; rw [h]

/-- A fault in `UNINIT` or `READY` sets ERR (rule R25). -/
theorem State.errAfter_not_failed (s : State) (f : FaultCode) (h : s.session ≠ .failed) :
    State.errAfter s f = .fault f := by
  unfold State.errAfter
  split
  · contradiction
  · rfl

/-- ERR after a fault, in one expression (rule R82). -/
theorem State.errAfter_eq (s : State) (f : FaultCode) :
    State.errAfter s f = if s.session = .failed then s.err else .fault f := by
  split
  · exact State.errAfter_failed s f ‹_›
  · exact State.errAfter_not_failed s f ‹_›

end Sys2Proof.Machine
end

