-- ==== Sys2Proof/Laws/Memory.lean ====
section
/-! SUPPORT. The laws of the probability memory: a read after a write, and that every operation keeps the canonical
form and the bound on addresses (spec/20_memory.md rules R32 to R34). -/

namespace Sys2Proof.Machine

/-- A read after a write gives the value written at that address and leaves every other address alone. -/
theorem Memory.read?_write (m : Memory) (a : Nat) (v : Entry) (a' : Nat) :
    Memory.read? (Memory.write m a v) a' = if a' = a then some v else Memory.read? m a' := by
  induction m with
  | nil => simp [Memory.write, Memory.read?]
  | cons e m ih =>
    obtain ⟨b, x⟩ := e
    unfold Memory.write
    split
    · simp [Memory.read?]
    · split
      · subst_vars
        simp only [Memory.read?]
        split <;> rfl
      · simp only [Memory.read?, ih]
        split_ifs <;> first | rfl | omega

/-- A write lists its own address and otherwise what was listed before. -/
theorem Memory.mem_write (m : Memory) (a : Nat) (v : Entry) (e : Nat × Entry)
    (h : e ∈ Memory.write m a v) : e.1 = a ∨ e ∈ m := by
  induction m with
  | nil => simp_all [Memory.write]
  | cons f m ih =>
    obtain ⟨b, x⟩ := f
    unfold Memory.write at h
    split at h
    · rcases List.mem_cons.mp h with rfl | h
      · exact .inl rfl
      · exact .inr h
    · split at h
      · rcases List.mem_cons.mp h with rfl | h
        · exact .inl rfl
        · exact .inr (List.mem_cons_of_mem _ h)
      · rcases List.mem_cons.mp h with rfl | h
        · exact .inr List.mem_cons_self
        · exact (ih h).imp_right (List.mem_cons_of_mem _)

/-- The canonical form, taken apart at the first entry. -/
theorem Memory.wf_cons (e : Nat × Entry) (m : Memory) :
    Memory.wf (e :: m) ↔ (∀ f ∈ m, e.1 < f.1) ∧ Memory.wf m := by
  simp [Memory.wf]

/-- A write keeps the canonical form. -/
theorem Memory.wf_write (m : Memory) (a : Nat) (v : Entry) (h : Memory.wf m) :
    Memory.wf (Memory.write m a v) := by
  induction m with
  | nil => simp [Memory.write, Memory.wf]
  | cons e m ih =>
    obtain ⟨b, x⟩ := e
    obtain ⟨hb, hm⟩ := (Memory.wf_cons _ _).mp h
    unfold Memory.write
    split
    · refine (Memory.wf_cons _ _).mpr ⟨?_, h⟩
      intro f hf
      rcases List.mem_cons.mp hf with rfl | hf
      · assumption
      · exact Nat.lt_trans ‹a < b› (hb f hf)
    · split
      · subst_vars
        exact (Memory.wf_cons _ _).mpr ⟨hb, hm⟩
      · refine (Memory.wf_cons _ _).mpr ⟨?_, ih hm⟩
        intro f hf
        rcases Memory.mem_write m a v f hf with h1 | h1
        · simp only [h1]; omega
        · exact hb f h1

/-- A read after `count` writes from `base` up. -/
theorem Memory.read?_fill (m : Memory) (base count : Nat) (v : Entry) (a : Nat) :
    Memory.read? (Memory.fill m base count v) a =
      if base ≤ a ∧ a < base + count then some v else Memory.read? m a := by
  induction count generalizing m base with
  | zero => simp only [Memory.fill]; rw [if_neg (by omega)]
  | succ n ih =>
    simp only [Memory.fill, ih, Memory.read?_write]
    split
    · rw [if_pos (by omega)]
    · by_cases h : a = base
      · rw [if_pos h, if_pos (by omega)]
      · rw [if_neg h, if_neg (by omega)]

/-- `count` writes keep the canonical form. -/
theorem Memory.wf_fill (m : Memory) (base count : Nat) (v : Entry) (h : Memory.wf m) :
    Memory.wf (Memory.fill m base count v) := by
  induction count generalizing m base with
  | zero => exact h
  | succ n ih => exact ih _ _ (Memory.wf_write m base v h)

/-- `count` writes list addresses of the region, and otherwise what was listed before. -/
theorem Memory.mem_fill (m : Memory) (base count : Nat) (v : Entry) (e : Nat × Entry)
    (h : e ∈ Memory.fill m base count v) : (base ≤ e.1 ∧ e.1 < base + count) ∨ e ∈ m := by
  induction count generalizing m base with
  | zero => exact .inr h
  | succ n ih =>
    rcases ih _ _ h with h1 | h1
    · exact .inl (by omega)
    · rcases Memory.mem_write m base v e h1 with h2 | h2
      · exact .inl (by omega)
      · exact .inr h2

/-- `MemRead` after `MemWrite` (rules R33, R34). -/
theorem State.readEntry_writeEntry (s : State) (a : Nat) (v : Entry) (a' : Nat) :
    State.readEntry (State.writeEntry s a v) a' = if a' = a then v else State.readEntry s a' := by
  simp only [State.readEntry, State.writeEntry_pm, Memory.read?_write]
  split <;> rfl

/-- `MemRead` after the writes of rule R70. -/
theorem State.readEntry_fillEntries (s : State) (base count : Nat) (v : Entry) (a : Nat) :
    State.readEntry (State.fillEntries s base count v) a =
      if base ≤ a ∧ a < base + count then v else State.readEntry s a := by
  simp only [State.readEntry, State.fillEntries_pm, Memory.read?_fill]
  split <;> rfl

/-- What is read depends on the memory alone. -/
theorem State.readEntry_of_pm (s t : State) (h : t.pm = s.pm) (a : Nat) :
    State.readEntry t a = State.readEntry s a := by
  simp [State.readEntry, h]

end Sys2Proof.Machine
end

