-- ==== Sys2Proof/Laws/Ops.lean ====
section
/-! SUPPORT. What each shared operation can do, said once: BsRead, Normalize, the loops of INIT and
DECODE_DIRECT_BITS, the session checks, and the four commands as a case split. -/

namespace Sys2Proof.Machine

/-! ### BsRead and Normalize -/

/-- Everything BsRead can do (rule R31). -/
theorem State.bsRead_cases (s : State) :
    (∃ b, s.answers ≠ some 0 ∧ s.stream[s.pos]? = some b ∧ State.bsRead s = .byte b (State.takeBytes s 1)) ∨
    (s.answers ≠ some 0 ∧ s.stream[s.pos]? = none ∧ State.bsRead s = .eos) ∨
    (s.answers = some 0 ∧ State.bsRead s = .noAnswer) := by
  unfold State.bsRead
  by_cases h : s.answers = some 0
  · simp [h]
  · cases hb : s.stream[s.pos]? <;> simp [h]

/-- Everything Normalize can do (rule R54). -/
theorem runNormalize_cases (c : Coder) (s : State) :
    (topByteZero c.range = false ∧ runNormalize c s = .done c s) ∨
    (∃ b, topByteZero c.range = true ∧ s.answers ≠ some 0 ∧ s.stream[s.pos]? = some b ∧
      runNormalize c s = .done ⟨c.range <<< 8, shiftIn c.code b⟩ (State.takeBytes s 1)) ∨
    (topByteZero c.range = true ∧ s.answers ≠ some 0 ∧ s.stream[s.pos]? = none ∧
      runNormalize c s = .raised .streamExhausted s) ∨
    (topByteZero c.range = true ∧ s.answers = some 0 ∧ runNormalize c s = .waiting s) := by
  unfold runNormalize
  cases ht : topByteZero c.range with
  | false => simp
  | true =>
    right
    rcases State.bsRead_cases s with ⟨b, h1, h2, h3⟩ | ⟨h1, h2, h3⟩ | ⟨h1, h3⟩ <;> rw [h3]
    · exact .inl ⟨b, rfl, h1, h2, rfl⟩
    · exact .inr (.inl ⟨rfl, h1, h2, rfl⟩)
    · exact .inr (.inr ⟨rfl, h1, rfl⟩)

/-! ### The loops -/

/-- How a part that only reads bytes, at most `k`, ends: some bytes further on; or at the end of the stream with
StreamExhausted; or in flight, at the first request the source leaves unanswered. -/
def OnlyReads {α : Type} (k : Nat) (s : State) : OpResult α → Prop
  | .done _ t => ∃ j, j ≤ k ∧ t = State.takeBytes s j
  | .raised f t => f = .streamExhausted ∧ s.stream.length < s.pos + k ∧
      t = State.takeBytes s (s.stream.length - s.pos)
  | .waiting t => ∃ p j, j < k ∧ s.answers = some j ∧ t = State.wait (State.takeBytes s j) p

/-- The end of the stream at once. -/
theorem OnlyReads.dry {α : Type} {k : Nat} {s : State} (h : s.stream[s.pos]? = none) :
    OnlyReads (k + 1) s (.raised (α := α) .streamExhausted s) := by
  rw [List.getElem?_eq_none_iff] at h
  refine ⟨rfl, by omega, ?_⟩
  rw [show s.stream.length - s.pos = 0 by omega, State.takeBytes_zero]

/-- An unanswered request at once. -/
theorem OnlyReads.held {α : Type} {k : Nat} {s : State} (p : Pending) (h : s.answers = some 0) :
    OnlyReads (k + 1) s (.waiting (α := α) (State.wait s p)) :=
  ⟨p, 0, by omega, h, by rw [State.takeBytes_zero]⟩

/-- One more byte read before the rest. -/
theorem OnlyReads.step {α : Type} {k : Nat} {s : State} {r : OpResult α} {b : Byte}
    (ha : s.answers ≠ some 0) (hb : s.stream[s.pos]? = some b)
    (h : OnlyReads k (State.takeBytes s 1) r) : OnlyReads (k + 1) s r := by
  obtain ⟨hlen, -⟩ := List.getElem?_eq_some_iff.mp hb
  cases r with
  | done v t =>
    obtain ⟨j, h1, h2⟩ := h
    exact ⟨1 + j, by omega, by rw [h2, State.takeBytes_takeBytes]⟩
  | raised f t =>
    obtain ⟨h1, h2, h3⟩ := h
    simp only [State.takeBytes_stream, State.takeBytes_pos] at h2 h3
    refine ⟨h1, by omega, ?_⟩
    rw [h3, State.takeBytes_takeBytes]
    congr 1; omega
  | waiting t =>
    obtain ⟨p, j, h1, h2, h3⟩ := h
    refine ⟨p, 1 + j, by omega, ?_, by rw [h3, State.takeBytes_takeBytes]⟩
    rw [State.takeBytes_answers] at h2
    cases hs : s.answers with
    | none => rw [hs] at h2; cases h2
    | some m =>
      rw [hs] at h2 ha
      simp only [Option.map_some, Option.some.injEq, ne_eq] at h2 ha ⊢
      omega

/-- No byte read before the rest. -/
theorem OnlyReads.mono {α : Type} {k : Nat} {s : State} {r : OpResult α}
    (h : OnlyReads k s r) : OnlyReads (k + 1) s r := by
  cases r with
  | done v t => obtain ⟨j, h1, h2⟩ := h; exact ⟨j, by omega, h2⟩
  | raised f t => exact ⟨h.1, by have := h.2.1; omega, h.2.2⟩
  | waiting t => obtain ⟨p, j, h1, h2⟩ := h; exact ⟨p, j, by omega, h2⟩

/-- The loop of INIT only reads (rule R53). -/
theorem readBytes_onlyReads (k : Nat) (c : Word) (s : State) : OnlyReads k s (readBytes k c s) := by
  induction k generalizing c s with
  | zero => exact ⟨0, le_refl _, by rw [State.takeBytes_zero]⟩
  | succ n ih =>
    unfold readBytes
    rcases State.bsRead_cases s with ⟨b, h1, h2, h3⟩ | ⟨h1, h2, h3⟩ | ⟨h1, h3⟩ <;> rw [h3]
    · exact (ih _ _).step h1 h2
    · exact .dry h2
    · exact .held _ h1

/-- The loop of INIT shifts in the bytes that stand at the cursor, in order (rules R35, R53). -/
theorem readBytes_eq (bytes : List Byte) (c : Word) (s : State) (h : bytes <+: s.stream.drop s.pos)
    (ha : ∀ m, s.answers = some m → bytes.length ≤ m) :
    readBytes bytes.length c s = .done (bytes.foldl shiftIn c) (State.takeBytes s bytes.length) := by
  induction bytes generalizing c s with
  | nil => simp [readBytes]
  | cons b bytes ih =>
    obtain ⟨rest, h⟩ := h
    have hb : s.stream[s.pos]? = some b := by
      rw [← List.head?_drop, ← h]; rfl
    have ht : s.stream.drop (s.pos + 1) = bytes ++ rest := by
      rw [← List.tail_drop, ← h]; rfl
    simp only [List.length_cons] at ha
    have h0 : s.answers ≠ some 0 := fun h => by have := ha _ h; omega
    rcases State.bsRead_cases s with ⟨b', h1, h2, h3⟩ | ⟨h1, h2, h3⟩ | ⟨h1, h3⟩
    · rw [h2] at hb
      cases hb
      simp only [List.length_cons, readBytes, h3, List.foldl_cons]
      rw [ih (shiftIn c b) (State.takeBytes s 1) ⟨rest, ht.symm⟩ ?_, State.takeBytes_takeBytes, Nat.add_comm]
      intro m hm
      rw [State.takeBytes_answers] at hm
      cases hs : s.answers with
      | none => rw [hs] at hm; cases hm
      | some q =>
        rw [hs] at hm
        have := ha q hs
        simp only [Option.map_some, Option.some.injEq] at hm
        omega
    · rw [h2] at hb; cases hb
    · exact absurd h1 h0

/-- The loop of INIT ends well only where all its bytes were there (rules R53, R55). -/
theorem readBytes_done (k : Nat) (c v : Word) (s t : State) (h : readBytes k c s = .done v t) :
    t = State.takeBytes s k ∧ (k = 0 ∨ s.pos + k ≤ s.stream.length) := by
  induction k generalizing c s with
  | zero => cases h; exact ⟨by rw [State.takeBytes_zero], .inl rfl⟩
  | succ n ih =>
    unfold readBytes at h
    rcases State.bsRead_cases s with ⟨b, h1, h2, h3⟩ | ⟨h1, h2, h3⟩ | ⟨h1, h3⟩ <;> rw [h3] at h
    · obtain ⟨ht, hk⟩ := ih _ _ h
      obtain ⟨hlen, -⟩ := List.getElem?_eq_some_iff.mp h2
      simp only [State.takeBytes_pos, State.takeBytes_stream] at hk
      exact ⟨by rw [ht, State.takeBytes_takeBytes, Nat.add_comm], .inr (by omega)⟩
    · cases h
    · cases h

/-- Everything a Normalize inside a command can do, with what it leaves in flight (rules R31, R54). -/
theorem runNormalize_hold_cases (c : Coder) (p : Pending) (s : State) :
    (topByteZero c.range = false ∧ (runNormalize c s).hold p = .done c s) ∨
    (∃ b, topByteZero c.range = true ∧ s.answers ≠ some 0 ∧ s.stream[s.pos]? = some b ∧
      (runNormalize c s).hold p = .done ⟨c.range <<< 8, shiftIn c.code b⟩ (State.takeBytes s 1)) ∨
    (topByteZero c.range = true ∧ s.answers ≠ some 0 ∧ s.stream[s.pos]? = none ∧
      (runNormalize c s).hold p = .raised .streamExhausted s) ∨
    (topByteZero c.range = true ∧ s.answers = some 0 ∧ (runNormalize c s).hold p = .waiting (State.wait s p)) := by
  rcases runNormalize_cases c s with ⟨h1, h⟩ | ⟨b, h1, h2, h3, h⟩ | ⟨h1, h2, h3, h⟩ | ⟨h1, h2, h⟩ <;> rw [h]
  · exact .inl ⟨h1, rfl⟩
  · exact .inr (.inl ⟨b, h1, h2, h3, rfl⟩)
  · exact .inr (.inr (.inl ⟨h1, h2, h3, rfl⟩))
  · exact .inr (.inr (.inr ⟨h1, h2, rfl⟩))

/-- One iteration of DECODE_DIRECT_BITS and the rest (rule R63). -/
theorem directBits_succ (k : Nat) (c : Coder) (acc : Word) (s : State) :
    directBits (k + 1) c acc s =
      ((runNormalize (directHalve c) s).hold
          (.normalize (directHalve c) ((acc <<< 1) ||| (1#32 - directSign c)) k)).andThen
        fun c' s' => directBits k c' ((acc <<< 1) ||| (1#32 - directSign c)) s' := rfl

/-- The loop of DECODE_DIRECT_BITS only reads, at most one byte per iteration (rules R54, R55). -/
theorem directBits_onlyReads (k : Nat) (c : Coder) (acc : Word) (s : State) :
    OnlyReads k s (directBits k c acc s) := by
  induction k generalizing c acc s with
  | zero => exact ⟨0, le_refl _, by rw [State.takeBytes_zero]⟩
  | succ n ih =>
    rw [directBits_succ]
    rcases runNormalize_hold_cases (directHalve c)
        (.normalize (directHalve c) ((acc <<< 1) ||| (1#32 - directSign c)) n) s with
      ⟨-, h⟩ | ⟨b, -, h1, h2, h⟩ | ⟨-, h1, h2, h⟩ | ⟨-, h1, h⟩ <;> rw [h]
    · exact (ih _ _ _).mono
    · exact (ih _ _ _).step h1 h2
    · exact .dry h2
    · exact .held _ h1

/-- The loop of DECODE_DIRECT_BITS finishes when there is a byte, and an answer, for every iteration. -/
theorem directBits_done (k : Nat) (c : Coder) (acc : Word) (s : State) (h : s.pos + k ≤ s.stream.length)
    (ha : ∀ m, s.answers = some m → k ≤ m) : ∃ v t, directBits k c acc s = .done v t := by
  have ho := directBits_onlyReads k c acc s
  cases hd : directBits k c acc s with
  | done v t => exact ⟨v, t, rfl⟩
  | raised f t => rw [hd] at ho; have := ho.2.1; omega
  | waiting t =>
    rw [hd] at ho
    obtain ⟨p, j, hj, hm, -⟩ := ho
    have := ha _ hm
    omega

/-- `m` iterations and then `k` (rule R65 rests on it). -/
theorem directBits_add (m k : Nat) (c : Coder) (acc : Word) (s : State) :
    (∀ r t, directBits m c acc s = .done r t → directBits (m + k) c acc s = directBits k r.1 r.2 t) ∧
    (∀ r t, directBits (m + k) c acc s = .done r t → ∃ r' t', directBits m c acc s = .done r' t') := by
  induction m generalizing c acc s with
  | zero =>
    rw [Nat.zero_add]
    exact ⟨fun r t h => (by cases h; rfl), fun r t h => ⟨_, _, rfl⟩⟩
  | succ n ih =>
    rw [Nat.add_right_comm, directBits_succ, directBits_succ]
    cases runNormalize (directHalve c) s with
    | done c' s' => exact ih _ _ _
    | raised f s' => exact ⟨fun r t h => (by cases h), fun r t h => (by cases h)⟩
    | waiting s' => exact ⟨fun r t h => (by cases h), fun r t h => (by cases h)⟩

/-! ### The session checks and the commands -/

/-- Step lines 3 and 4 (rule R43). -/
theorem State.whenReady_cases (s : State) (run : Coder → State) :
    (∃ c, s.session = .ready c ∧ State.whenReady s run = run c) ∨
    (s.session = .uninit ∧ State.whenReady s run = State.raise s .notInitialized) ∨
    (s.session = .failed ∧ State.whenReady s run = State.raise s .sessionFailed) := by
  unfold State.whenReady
  cases s.session <;> simp

/-- INIT: a new session five bytes on, StreamExhausted at the end of the stream, or in flight (rules R31, R53). -/
theorem runInit_cases (s : State) :
    (∃ v, readBytes initBytes 0#32 s = .done v (State.takeBytes s 5) ∧ s.pos + 5 ≤ s.stream.length ∧
      runInit s = State.startSession (State.takeBytes s 5) ⟨rangeInit, v⟩) ∨
    (s.stream.length < s.pos + 5 ∧
      runInit s = State.raise (State.takeBytes s (s.stream.length - s.pos)) .streamExhausted) ∨
    (∃ p j, j < 5 ∧ s.answers = some j ∧ runInit s = State.wait (State.takeBytes s j) p) := by
  unfold runInit finishInit
  have hr := readBytes_onlyReads initBytes 0#32 s
  cases hv : readBytes initBytes 0#32 s with
  | done v t =>
    obtain ⟨rfl, hk⟩ := readBytes_done _ _ _ _ _ hv
    refine .inl ⟨v, rfl, ?_, rfl⟩
    rcases hk with hk | hk
    · cases hk
    · exact hk
  | raised f t =>
    rw [hv] at hr
    obtain ⟨rfl, h1, rfl⟩ := hr
    exact .inr (.inl ⟨h1, rfl⟩)
  | waiting t =>
    rw [hv] at hr
    obtain ⟨p, j, h1, h2, rfl⟩ := hr
    exact .inr (.inr ⟨p, j, h1, h2, rfl⟩)

/-- DECODE_BIT in a running session (rules R56, R57): the two checks, then the end of its Normalize. -/
theorem decodeBitReady_cases (addr : Nat) (s : State) (c : Coder) :
    (s.probDepth ≤ addr ∧ decodeBitReady addr s c = State.raise s .invalidIndex) ∨
    (addr < s.probDepth ∧ 2048 ≤ (State.readEntry s addr).toNat ∧
      decodeBitReady addr s c = State.raise s .probDomain) ∨
    (addr < s.probDepth ∧ (State.readEntry s addr).toNat < 2048 ∧
      decodeBitReady addr s c =
        ((runNormalize (adaptiveSplit c (State.readEntry s addr)).coder
          (State.writeEntry s addr (adaptiveSplit c (State.readEntry s addr)).entry)).hold
            (.normalize (adaptiveSplit c (State.readEntry s addr)).coder
              (adaptiveSplit c (State.readEntry s addr)).bit 0)).close
          fun c' s' => State.complete s' c' (adaptiveSplit c (State.readEntry s addr)).bit) := by
  unfold decodeBitReady modelTotal
  split
  · exact .inl ⟨‹_›, rfl⟩
  · split
    · exact .inr (.inl ⟨by omega, ‹_›, rfl⟩)
    · exact .inr (.inr ⟨by omega, by omega, rfl⟩)

/-- DECODE_DIRECT_BITS in a running session (rules R62, R63). -/
theorem decodeDirectBitsReady_cases (n : Nat) (s : State) (c : Coder) :
    (32 < n ∧ decodeDirectBitsReady n s c = State.raise s .invalidCount) ∨
    (n ≤ 32 ∧ ∃ r j, j ≤ n ∧ directBits n c 0#32 s = .done r (State.takeBytes s j) ∧
      decodeDirectBitsReady n s c = State.complete (State.takeBytes s j) r.1 r.2) ∨
    (n ≤ 32 ∧ s.stream.length < s.pos + n ∧
      directBits n c 0#32 s = .raised .streamExhausted (State.takeBytes s (s.stream.length - s.pos)) ∧
      decodeDirectBitsReady n s c =
        State.raise (State.takeBytes s (s.stream.length - s.pos)) .streamExhausted) ∨
    (n ≤ 32 ∧ ∃ p j, j < n ∧ s.answers = some j ∧
      directBits n c 0#32 s = .waiting (State.wait (State.takeBytes s j) p) ∧
      decodeDirectBitsReady n s c = State.wait (State.takeBytes s j) p) := by
  unfold decodeDirectBitsReady maxCount
  split
  · exact .inl ⟨‹_›, rfl⟩
  · have hr := directBits_onlyReads n c 0#32 s
    cases hd : directBits n c 0#32 s with
    | done r t =>
      rw [hd] at hr
      obtain ⟨j, hj, rfl⟩ := hr
      exact .inr (.inl ⟨by omega, r, j, hj, rfl, rfl⟩)
    | raised f t =>
      rw [hd] at hr
      obtain ⟨rfl, h1, rfl⟩ := hr
      exact .inr (.inr (.inl ⟨by omega, h1, rfl, rfl⟩))
    | waiting t =>
      rw [hd] at hr
      obtain ⟨p, j, h1, h2, rfl⟩ := hr
      exact .inr (.inr (.inr ⟨by omega, p, j, h1, h2, rfl, rfl⟩))

/-- INIT_BIT_MODELS (rule R70). -/
theorem runInitBitModels_cases (base count : Nat) (s : State) :
    (base + count ≤ s.probDepth ∧
      runInitBitModels base count s = State.respond (State.fillEntries s base count probInit) .ok 0#32) ∨
    (s.probDepth < base + count ∧ runInitBitModels base count s = State.raise s .invalidIndex) := by
  unfold runInitBitModels regionFits
  by_cases h : base + count ≤ s.probDepth
  · exact .inl ⟨h, by rw [if_pos (by simpa using h)]⟩
  · exact .inr ⟨by omega, by rw [if_neg (by simpa using h)]⟩

end Sys2Proof.Machine
end

