-- ==== Sys2Proof/Laws/Exec.lean ====
section
/-! SUPPORT. Commands as a whole: what a command can leave, said once for all four, and how the loop of
DECODE_DIRECT_BITS depends on its accumulator and on the rest of the state. -/

namespace Sys2Proof.Machine

/-- DECODE_BIT in a running session (rule R43). -/
theorem execDecodeBit_ready (s : State) (addr : Nat) (c : Coder) (h : s.session = .ready c) :
    exec (.decodeBit addr) s = .next (decodeBitReady addr s c) := by
  simp [exec, execDecodeBit, runDecodeBit, State.whenReady, h]

/-- DECODE_DIRECT_BITS in a running session (rule R43). -/
theorem execDecodeDirectBits_ready (s : State) (n : Nat) (c : Coder) (h : s.session = .ready c) :
    exec (.decodeDirectBits n) s = .next (decodeDirectBitsReady n s c) := by
  simp [exec, execDecodeDirectBits, runDecodeDirectBits, State.whenReady, h]

/-- The bits decoded so far only stand above the bits to come (rules R63, R65). -/
theorem directBits_acc (k : Nat) (c : Coder) (acc : Word) (s : State) (r : Coder × Word) (t : State) :
    directBits k c acc s = .done r t ↔
      ∃ v, directBits k c 0#32 s = .done (r.1, v) t ∧ r.2 = (acc <<< k) ||| v := by
  induction k generalizing c acc s r with
  | zero =>
    simp only [directBits, OpResult.done.injEq, Prod.mk.injEq]
    constructor
    · rintro ⟨rfl, rfl⟩; exact ⟨0#32, ⟨⟨rfl, rfl⟩, rfl⟩, by simp⟩
    · rintro ⟨v, ⟨⟨rfl, rfl⟩, rfl⟩, h⟩
      refine ⟨?_, rfl⟩
      rw [Prod.ext_iff]
      exact ⟨rfl, by simpa using h.symm⟩
  | succ n ih =>
    rw [directBits_succ, directBits_succ]
    cases runNormalize (directHalve c) s with
    | raised f t => simp [OpResult.hold, OpResult.andThen]
    | waiting t => simp [OpResult.hold, OpResult.andThen]
    | done c' s' =>
      simp only [OpResult.hold, OpResult.andThen]
      rw [ih]
      constructor
      · rintro ⟨v, h, hr⟩
        refine ⟨(0#32 <<< 1 ||| (1#32 - directSign c)) <<< n ||| v, (ih _ _ _ _).mpr ⟨v, h, rfl⟩, ?_⟩
        rw [hr]
        simp only [BitVec.shiftLeft_or_distrib, BitVec.zero_shiftLeft, BitVec.zero_or, BitVec.or_assoc]
        rw [← BitVec.shiftLeft_add, Nat.add_comm 1 n]
      · rintro ⟨w, h, hr⟩
        obtain ⟨v, hv, hw⟩ := (ih _ _ _ _).mp h
        refine ⟨v, hv, ?_⟩
        rw [hr]
        simp only at hw
        rw [hw]
        simp only [BitVec.shiftLeft_or_distrib, BitVec.zero_shiftLeft, BitVec.zero_or, BitVec.or_assoc]
        rw [← BitVec.shiftLeft_add, Nat.add_comm 1 n]

/-- The loop sees the Byte Source and the two registers, and moves the cursor alone (rules R63, R65, R69). -/
theorem directBits_frame (k : Nat) (c : Coder) (acc : Word) (s s' : State) (h1 : s.stream = s'.stream)
    (h2 : s.pos = s'.pos) (h3 : s.answers = s'.answers) :
    directBits k c acc s' =
      match directBits k c acc s with
      | .done r t => .done r { s' with pos := t.pos, answers := t.answers }
      | .raised f t => .raised f { s' with pos := t.pos, answers := t.answers }
      | .waiting t => .waiting { s' with pos := t.pos, answers := t.answers, flight := t.flight } := by
  induction k generalizing c acc s s' with
  | zero => simp [directBits, h2, h3]
  | succ n ih =>
    rw [directBits_succ, directBits_succ]
    generalize Pending.normalize _ _ _ = p
    rcases runNormalize_hold_cases (directHalve c) p s with
      ⟨g1, h⟩ | ⟨b, g1, g2, g3, h⟩ | ⟨g1, g2, g3, h⟩ | ⟨g1, g2, h⟩ <;> rw [h] <;>
      rcases runNormalize_hold_cases (directHalve c) p s' with
        ⟨g1', h'⟩ | ⟨b', g1', g2', g3', h'⟩ | ⟨g1', g2', g3', h'⟩ | ⟨g1', g2', h'⟩ <;> rw [h'] <;>
      first
        | (rw [g1] at g1'; cases g1'; done)
        | (rw [h3] at g2; exact absurd g2' g2)
        | (rw [h3] at g2; exact absurd g2 g2')
        | (rw [h1, h2, g3'] at g3; cases g3; done)
        | skip
    · exact ih _ _ _ _ h1 h2 h3
    · rw [h1, h2, g3'] at g3
      cases g3
      simp only [OpResult.andThen]
      rw [ih _ _ (State.takeBytes s 1) (State.takeBytes s' 1) h1 (by simp [h2]) (by simp [h3])]
      rfl
    · simp [OpResult.andThen, h2, h3]
    · simp [OpResult.andThen, h2, h3, State.wait]

/-- Everything a command can leave, by how it ends (rules R31, R43, R82, R84): answered `OK`, answered with a fault, or
in flight at a request that the Byte Source leaves unanswered. -/
theorem exec_cases (i : Instr) (s : State) :
    ∃ t j, exec i s = .next t ∧ t.host = s.host ∧ t.stream = s.stream ∧ t.hostReads = s.hostReads ∧
      t.probDepth = s.probDepth ∧ t.accepts = s.accepts ∧ t.pos = s.pos + j ∧
      t.answers = s.answers.map (· - j) ∧
      ((AnsweredOk s t ∧ (i = .init → t.err = .ok ∧ ∃ c, t.session = .ready c) ∧
          (i ≠ .init → t.err = s.err ∧ t.sessOut = s.sessOut) ∧
          (isDecodeCommand i = true → (∃ c, s.session = .ready c) ∧ ∃ c, t.session = .ready c)) ∨
        (∃ f, AnsweredFault f s t ∧ t.session = .failed ∧ t.result = 0#32 ∧ t.err = State.errAfter s f) ∨
        (Unanswered s t ∧ s.answers = some j ∧ t.session = s.session ∧ t.err = s.err ∧
          t.result = s.result)) := by
  have fault (f : FaultCode) (j : Nat) (u : State) (hu : ∃ m, u = { State.takeBytes s j with pm := m }) :
      ∃ t j, Host.Outcome.next (State.raise u f) = (.next t : Host.Outcome State Fault Refusal) ∧ t.host = s.host ∧
        t.stream = s.stream ∧ t.hostReads = s.hostReads ∧
        t.probDepth = s.probDepth ∧ t.accepts = s.accepts ∧ t.pos = s.pos + j ∧
        t.answers = s.answers.map (· - j) ∧
        ((AnsweredOk s t ∧ (i = .init → t.err = .ok ∧ ∃ c, t.session = .ready c) ∧
            (i ≠ .init → t.err = s.err ∧ t.sessOut = s.sessOut) ∧
            (isDecodeCommand i = true → (∃ c, s.session = .ready c) ∧ ∃ c, t.session = .ready c)) ∨
          (∃ f, AnsweredFault f s t ∧ t.session = .failed ∧ t.result = 0#32 ∧ t.err = State.errAfter s f) ∨
          (Unanswered s t ∧ s.answers = some j ∧ t.session = s.session ∧ t.err = s.err ∧
            t.result = s.result)) := by
    obtain ⟨m, rfl⟩ := hu
    exact ⟨_, j, rfl, rfl, rfl, rfl, rfl, rfl, rfl, rfl, .inr (.inl ⟨f, ⟨rfl, rfl⟩, rfl, rfl, rfl⟩)⟩
  have fault0 (f : FaultCode) := fault f 0 s ⟨s.pm, by rw [State.takeBytes_zero]⟩
  cases i with
  | init =>
    rw [show exec .init s = .next (runInit s) from rfl]
    rcases runInit_cases s with ⟨v, -, -, h⟩ | ⟨-, h⟩ | ⟨p, j, -, hj, h⟩ <;> rw [h]
    · exact ⟨_, 5, rfl, rfl, rfl, rfl, rfl, rfl, rfl, rfl, .inl ⟨⟨rfl, rfl⟩, fun _ => ⟨rfl, _, rfl⟩,
        fun h => absurd rfl h, fun h => by cases h⟩⟩
    · exact fault _ (s.stream.length - s.pos) (State.takeBytes s _) ⟨s.pm, rfl⟩
    · exact ⟨_, j, rfl, rfl, rfl, rfl, rfl, rfl, rfl, rfl, .inr (.inr ⟨⟨⟨p, rfl⟩, rfl⟩, hj, rfl, rfl, rfl⟩)⟩
  | decodeBit addr =>
    rw [show exec (.decodeBit addr) s = .next (State.whenReady s (decodeBitReady addr s)) from rfl]
    rcases State.whenReady_cases s (decodeBitReady addr s) with ⟨c, hc, h⟩ | ⟨hc, h⟩ | ⟨hc, h⟩ <;> rw [h]
    · have hq (d : Coder) : Session.code (.ready d) = s.sessOut := by simp [State.sessOut, hc, Session.code]
      rcases decodeBitReady_cases addr s c with ⟨_, h⟩ | ⟨_, _, h⟩ | ⟨_, _, h⟩ <;> rw [h]
      · exact fault0 _
      · exact fault0 _
      · generalize adaptiveSplit c _ = sp
        rcases runNormalize_hold_cases sp.coder (.normalize sp.coder sp.bit 0)
            (State.writeEntry s addr sp.entry) with
          ⟨-, h⟩ | ⟨b, -, -, -, h⟩ | ⟨-, -, -, h⟩ | ⟨-, ha, h⟩ <;> rw [h]
        · exact ⟨_, 0, rfl, rfl, rfl, rfl, rfl, rfl, rfl, by simp [OpResult.close],
            .inl ⟨⟨rfl, rfl⟩, fun h => by (cases h), fun _ => ⟨rfl, hq _⟩, fun _ => ⟨⟨_, hc⟩, ⟨_, rfl⟩⟩⟩⟩
        · exact ⟨_, 1, rfl, rfl, rfl, rfl, rfl, rfl, rfl, rfl,
            .inl ⟨⟨rfl, rfl⟩, fun h => by (cases h), fun _ => ⟨rfl, hq _⟩, fun _ => ⟨⟨_, hc⟩, ⟨_, rfl⟩⟩⟩⟩
        · exact fault _ 0 _ ⟨Memory.write s.pm addr sp.entry, by rw [State.takeBytes_zero]; rfl⟩
        · exact ⟨_, 0, rfl, rfl, rfl, rfl, rfl, rfl, rfl, by simp [OpResult.close],
            .inr (.inr ⟨⟨⟨_, rfl⟩, rfl⟩, ha, rfl, rfl, rfl⟩)⟩
    · exact fault0 _
    · exact fault0 _
  | decodeDirectBits n =>
    rw [show exec (.decodeDirectBits n) s = .next (State.whenReady s (decodeDirectBitsReady n s)) from rfl]
    rcases State.whenReady_cases s (decodeDirectBitsReady n s) with ⟨c, hc, h⟩ | ⟨hc, h⟩ | ⟨hc, h⟩ <;> rw [h]
    · have hq (d : Coder) : Session.code (.ready d) = s.sessOut := by simp [State.sessOut, hc, Session.code]
      rcases decodeDirectBitsReady_cases n s c with
        ⟨_, h⟩ | ⟨_, r, j, _, _, h⟩ | ⟨_, _, _, h⟩ | ⟨_, p, j, _, hj, _, h⟩ <;> rw [h]
      · exact fault0 _
      · exact ⟨_, j, rfl, rfl, rfl, rfl, rfl, rfl, rfl, rfl,
          .inl ⟨⟨rfl, rfl⟩, fun h => by (cases h), fun _ => ⟨rfl, hq _⟩, fun _ => ⟨⟨_, hc⟩, ⟨_, rfl⟩⟩⟩⟩
      · exact fault _ (s.stream.length - s.pos) (State.takeBytes s _) ⟨s.pm, rfl⟩
      · exact ⟨_, j, rfl, rfl, rfl, rfl, rfl, rfl, rfl, rfl,
          .inr (.inr ⟨⟨⟨p, rfl⟩, rfl⟩, hj, rfl, rfl, rfl⟩)⟩
    · exact fault0 _
    · exact fault0 _
  | initBitModels b c =>
    rw [show exec (.initBitModels b c) s = .next (runInitBitModels b c s) from rfl]
    rcases runInitBitModels_cases b c s with ⟨_, h⟩ | ⟨_, h⟩ <;> rw [h]
    · exact ⟨_, 0, rfl, rfl, rfl, rfl, rfl, rfl, rfl, by simp, .inl ⟨⟨rfl, rfl⟩, fun h => by (cases h),
        fun _ => ⟨rfl, rfl⟩, fun h => by cases h⟩⟩
    · exact fault0 _

end Sys2Proof.Machine
end

