-- ==== Sys2Proof/Laws/Step.lean ====
section
/-! SUPPORT. The step as a whole: which move it makes, what a command word leads to, and everything a command that is
taken up again can do (rules R43, R97). -/

namespace Sys2Proof.Machine

/-- On an idle block the next move is made (rule R43). -/
theorem step_idle (s : State) (e : HostEvent) (es : List HostEvent) (h : s.host = e :: es) (hi : s.flight = .idle) :
    step s = hostMove e { s with host := es } := by
  simp [step, h, canMove, hi]

/-- Every command runs: no arm of `exec` faults or refuses. -/
theorem exec_next (i : Instr) (s : State) : ∃ t, exec i s = .next t := by
  cases i <;> exact ⟨_, rfl⟩

/-- A command word that decodes: its command, and the transfer of the response (rule R43). -/
theorem step_command (s : State) (w : CmdWord) (es : List HostEvent) (i : Instr) (h : s.Takes w es)
    (hd : decode w = .ok i) :
    ∃ t, exec i { s with host := es } = .next t ∧ step s = .next (State.deliver t) := by
  obtain ⟨h1, h2, h3⟩ := h
  obtain ⟨t, ht⟩ := exec_next i { s with host := es }
  have hc : continuesMovedSession i { s with host := es } = false := h3 i hd
  exact ⟨t, ht, by simp [step_idle s _ es h1 h2, hostMove, acceptCommand, hd, hc, ht, delivered]⟩

/-- A command word that does not decode (rule R48). -/
theorem step_illegal (s : State) (w : CmdWord) (es : List HostEvent) (e : Illegal) (h : s.Takes w es)
    (hd : decode w = .error e) :
    step s = .next (State.deliver (State.raise { s with host := es } .illegalCommand)) := by
  obtain ⟨h1, h2, -⟩ := h
  simp [step_idle s _ es h1 h2, hostMove, acceptCommand, hd, delivered]

/-- INIT, one byte further (rules R31, R53). -/
theorem finishInit_succ (k : Nat) (c : Word) (s : State) :
    finishInit (k + 1) c s =
      match State.bsRead s with
      | .byte b s' => finishInit k (shiftIn c b) s'
      | .eos => State.raise s .streamExhausted
      | .noAnswer => State.wait s (.init (k + 1) c) := by
  unfold finishInit
  rw [readBytes]
  cases State.bsRead s <;> rfl

/-- A decode command from its Normalize on, by the outcome of that Normalize (rules R54, R63). -/
theorem finishDecode_eq (left : Nat) (c : Coder) (acc : Word) (s : State) :
    finishDecode left c acc s =
      match runNormalize c s with
      | .done c' s' => (directBits left c' acc s').close fun r u => State.complete u r.1 r.2
      | .raised f s' => State.raise s' f
      | .waiting s' => State.wait s' (.normalize c acc left) := by
  unfold finishDecode
  cases runNormalize c s <;> rfl

/-- What a part that only reads bytes leaves once the command has ended or waits. -/
theorem OnlyReads.close_cases {α : Type} {k : Nat} {s : State} {r : OpResult α} {go : α → State → State}
    (h : OnlyReads k s r)
    (hgo : ∀ v u, (go v u).pm = u.pm ∧ (go v u).pos = u.pos ∧ (go v u).host = u.host ∧
      (go v u).responses = u.responses ∧ (go v u).probDepth = u.probDepth ∧ (go v u).accepts = u.accepts ∧
      ∃ q, (go v u).flight = .responding q) :
    (r.close go).pm = s.pm ∧ s.pos ≤ (r.close go).pos ∧ (r.close go).pos ≤ s.pos + k ∧
      (r.close go).host = s.host ∧ (r.close go).responses = s.responses ∧
      (r.close go).probDepth = s.probDepth ∧ (r.close go).accepts = s.accepts ∧
      ((∃ q, (r.close go).flight = .responding q) ∨ ∃ p, (r.close go).flight = .waiting p) := by
  cases r with
  | done v u =>
    obtain ⟨j, hj, rfl⟩ := h
    obtain ⟨h1, h2, h3, h4, h5, h6, h7⟩ := hgo v (State.takeBytes s j)
    refine ⟨h1, ?_, ?_, h3, h4, h5, h6, .inl h7⟩ <;> simp only [OpResult.close, h2, State.takeBytes_pos] <;> omega
  | raised f u =>
    obtain ⟨-, hl, rfl⟩ := h
    refine ⟨rfl, ?_, ?_, rfl, rfl, rfl, rfl, .inl ⟨_, rfl⟩⟩ <;>
      simp only [OpResult.close, State.raise_pos, State.takeBytes_pos] <;> omega
  | waiting u =>
    obtain ⟨p, j, hj, -, rfl⟩ := h
    refine ⟨rfl, ?_, ?_, rfl, rfl, rfl, rfl, .inr ⟨p, rfl⟩⟩ <;>
      simp only [OpResult.close, State.wait_pos, State.takeBytes_pos] <;> omega

/-- The Normalize and the direct bits of a decode command that is taken up again only read (rules R54, R63). -/
theorem finishDecode_onlyReads (left : Nat) (c : Coder) (acc : Word) (s : State) :
    OnlyReads (left + 1) s
      (((runNormalize c s).hold (.normalize c acc left)).andThen fun c' s' => directBits left c' acc s') := by
  rcases runNormalize_hold_cases c (.normalize c acc left) s with
    ⟨-, h⟩ | ⟨b, -, h1, h2, h⟩ | ⟨-, h1, h2, h⟩ | ⟨-, h1, h⟩ <;> rw [h]
  · exact (directBits_onlyReads _ _ _ _).mono
  · exact (directBits_onlyReads _ _ _ _).step h1 h2
  · exact .dry h2
  · exact .held _ h1

/-- How many bytes a command in flight can still take (rules R37, R55). -/
def Pending.bytesLeft : Pending → Nat
  | .init left _ => left
  | .normalize _ _ left => left + 1

/-- Everything a command that is taken up again leaves alone, and how it ends: with a response or waiting again
(rules R31 (c), R97). -/
theorem resume_cases (p : Pending) (s : State) :
    (resume p s).pm = s.pm ∧ s.pos ≤ (resume p s).pos ∧ (resume p s).pos ≤ s.pos + p.bytesLeft ∧
      (resume p s).host = s.host ∧ (resume p s).responses = s.responses ∧
      (resume p s).probDepth = s.probDepth ∧ (resume p s).accepts = s.accepts ∧
      ((∃ q, (resume p s).flight = .responding q) ∨ ∃ p', (resume p s).flight = .waiting p') := by
  cases p with
  | init left code =>
    exact (readBytes_onlyReads left code s).close_cases fun v u => ⟨rfl, rfl, rfl, rfl, rfl, rfl, _, rfl⟩
  | normalize c value left =>
    exact (finishDecode_onlyReads left c value s).close_cases fun v u => ⟨rfl, rfl, rfl, rfl, rfl, rfl, _, rfl⟩

end Sys2Proof.Machine
end

