-- ==== Sys2Proof/Tests/Slice0.lean ====
section
/-! SUPPORT. The model's own tests, each expected result taken from spec/95_test_vectors.md, and for each statement
with hypotheses a state that meets them (theorems witness_<statement>). -/

namespace Sys2Proof.Tests

open Sys2Proof.Machine

/-! ### Well-formedness: one ill-formed term for each check -/

theorem test_wellFormed_init : Instr.wellFormed .init = true := by decide
theorem test_wellFormed_largest : Instr.wellFormed (.initBitModels 65535 65535) = true := by decide
theorem test_illFormed_addr : Instr.wellFormed (.decodeBit 65536) = false := by decide
theorem test_illFormed_n : Instr.wellFormed (.decodeDirectBits 65536) = false := by decide
theorem test_illFormed_base : Instr.wellFormed (.initBitModels 65536 0) = false := by decide
theorem test_illFormed_count : Instr.wellFormed (.initBitModels 0 65536) = false := by decide

/-! ### Encodings, word by word (rules R44, R47; 95_test_vectors.md sections 2.5 and 2.6) -/

theorem test_decode_init : decode 0x0100000000#40 = .ok .init := by decide
theorem test_decode_decodeBit : decode 0x0200000004#40 = .ok (.decodeBit 4) := by decide
theorem test_decode_decodeDirectBits : decode 0x0300000021#40 = .ok (.decodeDirectBits 33) := by decide
theorem test_decode_initBitModels : decode 0x040007000A#40 = .ok (.initBitModels 10 7) := by decide
theorem test_encode_initBitModels : encode (.initBitModels 4 3) = 0x0400030004#40 := by decide
theorem test_encode_decodeBit : encode (.decodeBit 65535) = 0x020000FFFF#40 := by decide
theorem test_decode_X2 : decode 0x0100000001#40 = .error .mustBeZeroB := by decide
theorem test_decode_X4 : decode 0x0200010002#40 = .error .mustBeZeroA := by decide
theorem test_decode_X7 : decode 0xFF00000000#40 = .error .reservedOp := by decide
theorem test_tableWord : decodeTableWord 40 0x0300000014 = some (.decodeDirectBits 20) := by decide
theorem test_tableWord_zero : decodeTableWord 40 0 = none := by decide
theorem test_tableWord_otherWidth : decodeTableWord 32 0x01000000 = none := by decide

/-! ### Small states -/

/-- A block with 16 entries of probability memory. -/
def block (session : Session) (pm : Memory) (stream : List Byte) : State where
  session := session
  err := if session = .failed then .fault .illegalCommand else .ok
  result := 0#32
  pm := pm
  stream := stream
  pos := 0
  answers := none
  sourcePlaced := false
  flight := .idle
  accepts := true
  host := []
  responses := []
  hostReads := []
  probDepth := 16

/-- The same block, the host about to make its moves. -/
def blockWith (session : Session) (pm : Memory) (stream : List Byte) (host : List HostEvent) : State :=
  { block session pm stream with host := host }

/-- The same block with a Byte Source that delivers `n` more bytes and then leaves requests unanswered. -/
def stalling (n : Nat) (session : Session) (pm : Memory) (stream : List Byte) : State :=
  { block session pm stream with answers := some n }

/-- The next state, where there is one. -/
def next? : Host.Outcome State Fault Refusal → Option State
  | .next s => some s
  | .fault _ => none
  | .refused _ => none

/-- What a vector of the spec shows of the block after a command. -/
structure Shown where
  session : Session
  err : Status
  pos : Nat
  pm : Memory
  responses : List Response
  deriving DecidableEq, Repr

/-- What the outcome shows once its response is transferred. -/
def shown? (o : Host.Outcome State Fault Refusal) : Option Shown :=
  (next? o).map fun s => ⟨s.session, s.err, s.pos, s.pm, (State.deliver s).responses⟩

/-! ### One step of each command -/

/-- Vector I1. -/
theorem test_init_I1 :
    shown? (exec .init (block .uninit [] [0x00, 0x12, 0x34, 0x56, 0x78])) =
      some ⟨.ready ⟨0xFFFFFFFF#32, 0x12345678#32⟩, .ok, 5, [], [⟨.ok, 0#32⟩]⟩ := by decide

/-- Vector I6: three bytes, then the end of the stream. -/
theorem test_init_I6 :
    shown? (exec .init (block .uninit [] [0x00, 0x01, 0x02])) =
      some ⟨.failed, .fault .streamExhausted, 3, [], [⟨.fault .streamExhausted, 0#32⟩]⟩ := by decide

/-- Vector B3 (worked example S6): CODE = bound, and Normalize fires. -/
theorem test_decodeBit_B3 :
    shown? (exec (.decodeBit 2) (block (.ready ⟨0x01000000#32, 0x00800000#32⟩) [(2, 1024#16)] [0x7A])) =
      some ⟨.ready ⟨0x80000000#32, 0x0000007A#32⟩, .ok, 1, [(2, 992#16)], [⟨.ok, 1#32⟩]⟩ := by decide

/-- Vector B9: the entry is written before the fault. -/
theorem test_decodeBit_B9 :
    shown? (exec (.decodeBit 2) (block (.ready ⟨0xFFFFFFFF#32, 0xFFDFFFFF#32⟩) [(2, 2047#16)] [])) =
      some ⟨.failed, .fault .streamExhausted, 0, [(2, 1984#16)], [⟨.fault .streamExhausted, 0#32⟩]⟩ := by decide

/-- Vector D6 (worked example S3 as corrected): the formula, not an unsigned comparison. -/
theorem test_decodeDirectBits_D6 :
    shown? (exec (.decodeDirectBits 1) (block (.ready ⟨0xFFFFFFFF#32, 0xFFFFFFFF#32⟩) [] [])) =
      some ⟨.ready ⟨0x7FFFFFFF#32, 0xFFFFFFFF#32⟩, .ok, 0, [], [⟨.ok, 0#32⟩]⟩ := by decide

/-- Vector D12: eight bits, and Normalize fires in the eighth. -/
theorem test_decodeDirectBits_D12 :
    shown? (exec (.decodeDirectBits 8) (block (.ready ⟨0xFFFFFFFF#32, 0x12345678#32⟩) [] [0xAA])) =
      some ⟨.ready ⟨0xFFFFFF00#32, 0x34567AAA#32⟩, .ok, 1, [], [⟨.ok, 0x12#32⟩]⟩ := by decide

/-- Vector T1, on the entries about the region. -/
theorem test_initBitModels_T1 :
    shown? (exec (.initBitModels 4 3) (block .uninit [(3, 3#16), (5, 5#16), (7, 7#16)] [])) =
      some ⟨.uninit, .ok, 0, [(3, 3#16), (4, 1024#16), (5, 1024#16), (6, 1024#16), (7, 7#16)],
        [⟨.ok, 0#32⟩]⟩ := by decide

/-- Vector T5: nothing is written, not even the entries inside the memory. -/
theorem test_initBitModels_T5 :
    shown? (exec (.initBitModels 10 7) (block .uninit [(10, 3#16)] [])) =
      some ⟨.failed, .fault .invalidIndex, 0, [(10, 3#16)], [⟨.fault .invalidIndex, 0#32⟩]⟩ := by decide

/-! ### The step -/

/-- Vector X1, as a step: the illegal word is response word 0x400000000. -/
theorem test_step_X1 :
    ((next? (step (blockWith (.ready ⟨0xFFFFFFFF#32, 0x01020304#32⟩) [] [] [.command 0#40]))).map
      fun s => (s.responses.map Response.word, s.sessOut, s.errOut)) = some ([0x400000000#36], 2#2, 4#4) := by
  decide

/-- The word placed by withFetchWord is the command of the very next step, the first after reset: NotInitialized
(95_test_vectors.md section 2.6, step 1). -/
theorem test_withFetchWord_reset :
    ((next? (step (State.reset.withFetchWord 40 0x0200000000))).map fun s => (s.responses, s.errOut)) =
      some ([⟨.fault .notInitialized, 0#32⟩], 5#4) := by decide

/-- The host's port: an entry written reads back (rules R33, R38). -/
theorem test_hostPort :
    (((next? (step (blockWith .uninit [(1, 7#16)] [] [.writeEntry 3 65535#16, .readEntry 3]))).bind
      fun s => next? (step s)).map fun s => (s.pm, s.hostReads)) =
      some ([(1, 7#16), (3, 65535#16)], [65535#16]) := by decide

/-- Reset after the first transfer with the memory, the read: nothing is left of DECODE_BIT (rule R90). -/
theorem test_resetDuring_decodeBit_read :
    shown? (step (blockWith (.ready ⟨0x01000000#32, 0x00800000#32⟩) [(2, 1024#16)] [0x7A]
      [.resetDuring 0x0200000002#40 1])) = some ⟨.uninit, .ok, 0, [(2, 1024#16)], []⟩ := by decide

/-- Reset after the second, the write: the entry stays written, the byte was not taken (rule R90). -/
theorem test_resetDuring_decodeBit_written :
    shown? (step (blockWith (.ready ⟨0x01000000#32, 0x00800000#32⟩) [(2, 1024#16)] [0x7A]
      [.resetDuring 0x0200000002#40 2])) = some ⟨.uninit, .ok, 0, [(2, 992#16)], []⟩ := by decide

/-! ### A Byte Source that does not answer, a host that does not take a response (rules R31 (c), R97) -/

/-- INIT with two of its five bytes delivered: in flight, `cmd_ready` low, no response, the bytes taken. -/
theorem test_init_waits :
    ((next? (step { stalling 2 .uninit [] [0x00, 0x12, 0x34, 0x56, 0x78] with
        host := [.command 0x0100000000#40, .command 0x0100000000#40] })).map
      fun s => (s.pos, s.responses, s.cmdReady, s.rspValid, s.bsReady, s.sessOut)) =
      some (2, [], false, false, true, 0#2) := by decide

/-- Answered in the end, it ends as in vector I1. -/
theorem test_init_resumed :
    ((next? (step { stalling 2 .uninit [] [0x00, 0x12, 0x34, 0x56, 0x78] with
        host := [.command 0x0100000000#40, .sourceReady none] })).bind
      fun s => shown? (step s)) =
      some ⟨.ready ⟨0xFFFFFFFF#32, 0x12345678#32⟩, .ok, 5, [], [⟨.ok, 0#32⟩]⟩ := by decide

/-- Vector B3 with a source that does not answer at once: the entry is written, the registers are not, and the answer
gives what the vector says. -/
theorem test_decodeBit_resumed :
    ((next? (step { stalling 0 (.ready ⟨0x01000000#32, 0x00800000#32⟩) [(2, 1024#16)] [0x7A] with
        host := [.command 0x0200000002#40, .sourceReady (some 1)] })).bind
      fun s => (shown? (.next s)).bind fun first => (shown? (step s)).map fun second => [first, second]) =
      some [⟨.ready ⟨0x01000000#32, 0x00800000#32⟩, .ok, 0, [(2, 992#16)], []⟩,
        ⟨.ready ⟨0x80000000#32, 0x0000007A#32⟩, .ok, 1, [(2, 992#16)], [⟨.ok, 1#32⟩]⟩] := by decide

/-- Vector D12 with an unanswered request in its eighth bit, taken up again. -/
theorem test_decodeDirectBits_resumed :
    ((next? (step { stalling 0 (.ready ⟨0xFFFFFFFF#32, 0x12345678#32⟩) [] [0xAA] with
        host := [.command 0x0300000008#40, .sourceReady none] })).bind
      fun s => shown? (step s)) =
      some ⟨.ready ⟨0xFFFFFF00#32, 0x34567AAA#32⟩, .ok, 1, [], [⟨.ok, 0x12#32⟩]⟩ := by decide

/-- Reset while INIT waits: nothing is answered, the bytes taken stay taken (rule R90). -/
theorem test_reset_waiting :
    ((next? (step { stalling 2 .uninit [] [0x00, 0x12, 0x34, 0x56, 0x78] with
        host := [.command 0x0100000000#40, .reset] })).bind
      fun s => (next? (step s)).map fun t => (t.sessOut, t.pos, t.responses, t.cmdReady)) =
      some (0#2, 2, [], true) := by decide

/-- A host that holds `rsp_ready` low: the response is valid until it is taken. -/
theorem test_response_waits :
    ((next? (step { blockWith .uninit [] [] [.command 0x0400000000#40, .hostReady true] with accepts := false })).bind
      fun s => (next? (step s)).map fun t => ((s.rspValid, s.cmdReady, s.responses), t.rspValid, t.responses)) =
      some ((true, false, []), false, [⟨.ok, 0#32⟩]) := by decide

/-! ### The Byte Source placed by the host (rules R53, R85, R92, R95) -/

/-- Placed in a running session, and a new session begun there. -/
theorem test_positionSource_init :
    ((next? (step (blockWith (.ready ⟨0x01000000#32, 0#32⟩) [] [0xFF, 0x00, 0x12, 0x34, 0x56, 0x78]
        [.positionSource 1, .command 0x0100000000#40]))).bind
      fun s => (next? (step s)).map fun t => (t.session, t.pos)) =
      some (.ready ⟨0xFFFFFFFF#32, 0x12345678#32⟩, 6) := by decide

/-- The text form of rule R50: base first, then count. -/
theorem test_commandText : commandText (.initBitModels 4 3) = "INIT_BIT_MODELS 4, 3" := by decide

/-- Rule R51: 70 direct bits are 32 + 32 + 6. -/
theorem test_splitCount : splitCount 70 = [32, 32, 6] ∧ splitCount 64 = [32, 32] ∧ splitCount 0 = [0] := by decide

/-! ### Witnesses: encoding -/

theorem witness_DecodeOfEncode :
    Instr.wellFormed .init = true ∧ Instr.wellFormed (.decodeBit 65535) = true ∧
      Instr.wellFormed (.decodeDirectBits 65535) = true ∧ Instr.wellFormed (.initBitModels 65535 65535) = true := by
  decide

theorem witness_EncodeOfDecode : decode 0x04FFFFFFFF#40 = .ok (.initBitModels 65535 65535) := by decide

theorem witness_DecodeFollowsMaskAndMatch :
    decode 0x02FFFFFFFF#40 ≠ .ok (.decodeBit 65535) ∧ decode 0x020000FFFF#40 = .ok (.decodeBit 65535) ∧
      Instr.row (.decodeBit 0) ∈ opcodeRows ∧
      0x020000FFFF#40 &&& (Instr.row (.decodeBit 0)).mask = (Instr.row (.decodeBit 0)).pattern ∧
      Instr.row (.initBitModels 0 0) ∈ opcodeRows ∧
      0x04FFFFFFFF#40 &&& (Instr.row (.initBitModels 0 0)).mask = (Instr.row (.initBitModels 0 0)).pattern := by
  decide

/-- A session in which the host has not placed the Byte Source takes every command. -/
theorem takes (s : State) (w : CmdWord) (es : List HostEvent) (h1 : s.host = .command w :: es)
    (h2 : s.flight = .idle) (h3 : s.sourcePlaced = false) : s.Takes w es :=
  ⟨h1, h2, fun i _ => by cases h : s.session <;> simp [continuesMovedSession, h, h3]⟩

/-- A source that answers every request. -/
theorem answers (s : State) (n : Nat) (h : s.answers = none) : s.Answers n := fun k hk => by rw [h] at hk; cases hk

theorem witness_IllegalWordsExactly :
    (blockWith .uninit [] [] [.command 0x0100000001#40]).Takes 0x0100000001#40 [] ∧
      ∃ e, decode 0x0100000001#40 = .error e := ⟨takes _ _ _ rfl rfl rfl, .mustBeZeroB, rfl⟩

theorem witness_FaultCodeNumbers :
    (block (.ready ⟨1#32, 0#32⟩) [] []).session = .ready ⟨1#32, 0#32⟩ ∧ (block .uninit [] []).session = .uninit ∧
      (block .failed [] []).session = .failed ∧ (block .failed [] []).err = .fault .illegalCommand ∧
      (block .uninit [] []).err = .ok ∧ Status.code (.fault .probDomain) = Status.code (.fault .probDomain) := by decide

/-- A command word, one in a session whose source the host has placed before INIT, and a response pending and not. -/
theorem witness_StepRunsDecodedCommand :
    (blockWith .uninit [] [] [.command 0x0100000000#40]).Takes 0x0100000000#40 [] ∧
      decode 0x0100000000#40 = .ok .init ∧ decode (BitVec.ofNat 40 0x0100000000) = .ok .init ∧
      (afterOk 7#32 (block .uninit [] [])).flight = .responding ⟨.ok, 7#32⟩ ∧
      (afterOk 7#32 (block .uninit [] [])).accepts = true ∧
      ({ afterOk 7#32 (block .uninit [] []) with accepts := false } : State).accepts = false ∧
      ∀ r, (block .uninit [] []).flight ≠ .responding r :=
  ⟨takes _ _ _ rfl rfl rfl, rfl, rfl, rfl, rfl, rfl, fun _ h => by cases h⟩

theorem witness_IdleBlockWaits : (block .uninit [] []).host = [] := by decide

theorem witness_EveryCommandAnsweredOnce :
    (blockWith .failed [] [] [.command 0#40, .reset]).Takes 0#40 [.reset] ∧
      (blockWith .failed [] [] [.command 0#40, .reset]).Fair :=
  ⟨takes _ _ _ rfl rfl rfl, rfl, answers _ _ rfl⟩

/-- INIT with two of its bytes delivered, waiting. -/
def waiting : State :=
  { stalling 0 .uninit [] [0x00, 0x12, 0x34, 0x56, 0x78] with pos := 2, flight := .waiting (.init 3 0x12#32) }

/-- It is what INIT leads to. -/
theorem test_waiting : exec .init (stalling 2 .uninit [] [0x00, 0x12, 0x34, 0x56, 0x78]) = .next waiting := by rfl

/-- Each clause: a command word; another move while one is in flight; a pending response that the host takes, and goes
on not taking; an answer; `rsp_ready` and a reset while a command waits. -/
theorem witness_CommandCompletesOrHangs :
    (blockWith .failed [] [] [.command 0#40]).Takes 0#40 [] ∧
      ({ waiting with host := [.resetDuring 0#40 1] } : State).flight ≠ .idle ∧
      ({ waiting with host := [.resetDuring 0#40 1] } : State).host = .resetDuring 0#40 1 :: [] ∧
      ({ afterOk 7#32 (block .uninit [] []) with host := [.hostReady true] } : State).flight =
        .responding ⟨.ok, 7#32⟩ ∧
      ({ waiting with host := [.sourceReady (some 3)] } : State).flight = .waiting (.init 3 0x12#32) ∧
      ({ waiting with host := [.sourceReady (some 3)] } : State).host = .sourceReady (some 3) :: [] ∧
      ({ waiting with host := [.hostReady false] } : State).host = .hostReady false :: [] ∧
      ({ waiting with host := [.reset] } : State).host = .reset :: [] :=
  ⟨takes _ _ _ rfl rfl rfl, by decide, rfl, rfl, rfl, rfl, rfl, rfl⟩

/-- INIT in its third byte, DECODE_BIT at its Normalize, DECODE_DIRECT_BITS in its eighth bit. -/
theorem witness_ResumedCommandIsTheCommand :
    (exec .init (stalling 2 .uninit [] [0x00, 0x12, 0x34, 0x56, 0x78]) = .next waiting ∧
        waiting.flight = .waiting (.init 3 0x12#32)) ∧
      (∃ t p, exec (.decodeBit 2) (stalling 0 (.ready ⟨0x01000000#32, 0x00800000#32⟩) [(2, 1024#16)] [0x7A]) =
        .next t ∧ t.flight = .waiting p) ∧
      ∃ t p, exec (.decodeDirectBits 8) (stalling 0 (.ready ⟨0xFFFFFFFF#32, 0x12345678#32⟩) [] [0xAA]) = .next t ∧
        t.flight = .waiting p :=
  ⟨⟨rfl, rfl⟩, ⟨_, _, rfl, rfl⟩, _, _, rfl, rfl⟩

/-! ### Witnesses: the order of the checks, one for each clause -/

/-- A running session with 2047 at the last address and 2048 below it. -/
def running : State := block (.ready ⟨0xFFFFFFFF#32, 0#32⟩) [(14, 2048#16), (15, 2047#16)] [0x01]

theorem witness_FaultPriority_word :
    (∃ e, decode 0x0500000000#40 = .error e) ∧ decode 0x0100000000#40 = .ok .init ∧
      (blockWith .uninit [] [] [.command 0x0500000000#40]).Takes 0x0500000000#40 [] ∧
      (blockWith .uninit [] [] [.command 0x0500000000#40]).Fair :=
  ⟨⟨.reservedOp, rfl⟩, rfl, takes _ _ _ rfl rfl rfl, rfl, answers _ _ rfl⟩

theorem witness_FaultPriority_session :
    decode 0x020000FFFF#40 = .ok (.decodeBit 65535) ∧ isDecodeCommand (.decodeBit 65535) = true ∧
      (block .failed [] []).session = .failed ∧ (block .uninit [] []).session = .uninit := by decide

theorem witness_FaultPriority_decodeBit :
    decode 0x0200000010#40 = .ok (.decodeBit 16) ∧ decode 0x020000000E#40 = .ok (.decodeBit 14) ∧
      decode 0x020000000F#40 = .ok (.decodeBit 15) ∧
      running.session = .ready ⟨0xFFFFFFFF#32, 0#32⟩ ∧ running.probDepth ≤ 16 ∧ 14 < running.probDepth ∧
      2048 ≤ (running.readEntry 14).toNat ∧ 15 < running.probDepth ∧ (running.readEntry 15).toNat < 2048 := by
  decide

theorem witness_FaultPriority_counts :
    decode 0x0300000021#40 = .ok (.decodeDirectBits 33) ∧ decode 0x0300000020#40 = .ok (.decodeDirectBits 32) ∧
      decode 0x0400100001#40 = .ok (.initBitModels 1 16) ∧ running.probDepth < 1 + 16 ∧
      decode 0x0400100000#40 = .ok (.initBitModels 0 16) ∧ 0 + 16 ≤ running.probDepth := by decide

/-! ### Witnesses: the session -/

theorem witness_DecodeCommandsNeedSession :
    isDecodeCommand (.decodeDirectBits 0) = true ∧ (block .uninit [] []).session = .uninit ∧
      (block .failed [] []).session = .failed := by decide

/-- A sound state about to take a reset, one a reset in the middle of a command, one an INIT that succeeds, and one in
which a fault follows a fault. -/
theorem witness_SessionTransitions :
    (blockWith .failed [(15, 0#16)] [] [.reset]).Sound ∧
      (blockWith .failed [(15, 0#16)] [] [.reset]).host = .reset :: [] ∧
      (blockWith .uninit [] [] [.resetDuring 0x0100000000#40 3]).Sound ∧
      (blockWith .uninit [] [] [.resetDuring 0x0100000000#40 3]).host = .resetDuring 0x0100000000#40 3 :: [] ∧
      (blockWith .uninit [] [] [.resetDuring 0x0100000000#40 3]).flight = .idle ∧
      (blockWith .failed [] [0, 0, 0, 0, 0] [.command 0x0100000000#40]).Sound ∧
      (blockWith .failed [] [0, 0, 0, 0, 0] [.command 0x0100000000#40]).Takes 0x0100000000#40 [] ∧
      (∃ t, step (blockWith .failed [] [0, 0, 0, 0, 0] [.command 0x0100000000#40]) = .next t ∧
        RespondedWith ⟨.ok, 0#32⟩ (blockWith .failed [] [0, 0, 0, 0, 0] [.command 0x0100000000#40]) t) ∧
      (blockWith .failed [] [] [.command 0#40]).Sound ∧
      ∃ t, step (blockWith .failed [] [] [.command 0#40]) = .next t ∧
        RespondedWith ⟨.fault .illegalCommand, 0#32⟩ (blockWith .failed [] [] [.command 0#40]) t :=
  ⟨by decide, rfl, by decide, rfl, rfl, by decide, takes _ _ _ rfl rfl rfl, ⟨_, rfl, .inl ⟨rfl, rfl⟩⟩, by decide,
    _, rfl, .inl ⟨rfl, rfl⟩⟩

/-- A decode command that succeeds in a sound state, and an INIT_BIT_MODELS that succeeds after a fault. -/
theorem witness_SessionTransitions_ok :
    (blockWith (.ready ⟨0xFFFFFFFF#32, 0#32⟩) [] [] [.command 0x0300000001#40]).Sound ∧
      decode 0x0300000001#40 = .ok (.decodeDirectBits 1) ∧ isDecodeCommand (.decodeDirectBits 1) = true ∧
      (∃ t, step (blockWith (.ready ⟨0xFFFFFFFF#32, 0#32⟩) [] [] [.command 0x0300000001#40]) = .next t ∧
        RespondedWith ⟨.ok, 0#32⟩ (blockWith (.ready ⟨0xFFFFFFFF#32, 0#32⟩) [] [] [.command 0x0300000001#40]) t) ∧
      (blockWith .failed [] [] [.command 0x0400100000#40]).Sound ∧
      decode 0x0400100000#40 ≠ .ok .init ∧
      ∃ t, step (blockWith .failed [] [] [.command 0x0400100000#40]) = .next t ∧
        RespondedWith ⟨.ok, 0#32⟩ (blockWith .failed [] [] [.command 0x0400100000#40]) t :=
  ⟨by decide, rfl, rfl, ⟨_, rfl, .inl ⟨rfl, rfl⟩⟩, by decide, by decide, _, rfl, .inl ⟨rfl, rfl⟩⟩

/-- INIT waiting, in a sound state: the move that leads there, and the answer that ends it. -/
theorem witness_SessionTransitions_waiting :
    ({ stalling 2 .uninit [] [0x00, 0x12, 0x34, 0x56, 0x78] with host := [.command 0x0100000000#40] } : State).Sound ∧
      step { stalling 2 .uninit [] [0x00, 0x12, 0x34, 0x56, 0x78] with host := [.command 0x0100000000#40] } =
        .next waiting ∧
      waiting.flight = .waiting (.init 3 0x12#32) ∧ ({ waiting with host := [.sourceReady none] } : State).Sound ∧
      ∃ t, step { waiting with host := [.sourceReady none] } = .next t ∧ RespondedWith ⟨.ok, 0#32⟩ waiting t :=
  ⟨by decide, rfl, rfl, by decide, _, rfl, .inl ⟨rfl, rfl⟩⟩

/-! ### Witnesses: INIT and Normalize -/

/-- With a source that answers every request, and with one that delivers just the five bytes. -/
theorem witness_InitStartsSession :
    (block .failed [] [1, 2, 3, 4, 5]).stream.drop (block .failed [] [1, 2, 3, 4, 5]).pos =
        1#8 :: 2#8 :: 3#8 :: 4#8 :: 5#8 :: [] ∧
      (block .failed [] [1, 2, 3, 4, 5]).Answers 5 ∧ (stalling 5 .failed [] [1, 2, 3, 4, 5]).Answers 5 :=
  ⟨rfl, answers _ _ rfl, fun _ h => by cases h; decide⟩

/-- Four bytes with every request answered, and with just the four and the end-of-stream; then four bytes there and
the request for the fifth unanswered, and none delivered at all. -/
theorem witness_InitMeetsEndOfStream :
    (block .uninit [] [1, 2, 3, 4]).stream.length < (block .uninit [] [1, 2, 3, 4]).pos + 5 ∧
      (block .uninit [] [1, 2, 3, 4]).Answers 5 ∧ (stalling 5 .uninit [] [1, 2, 3, 4]).Answers 5 ∧
      4 < 5 ∧ (stalling 4 .uninit [] [1, 2, 3, 4]).answers = some 4 ∧
      4 ≤ (stalling 4 .uninit [] [1, 2, 3, 4]).stream.length - (stalling 4 .uninit [] [1, 2, 3, 4]).pos ∧
      (stalling 0 .uninit [] []).answers = some 0 :=
  ⟨by decide, answers _ _ rfl, fun _ h => by cases h; decide, by decide, rfl, by decide, rfl⟩

theorem witness_NormalizeIsOneConditionalStep :
    0x01000000 ≤ (0x01000000#32).toNat ∧ (0x00FFFFFF#32).toNat < 0x01000000 ∧
      (block .uninit [] [0xAA]).stream[(block .uninit [] [0xAA]).pos]? = some 0xAA#8 ∧
      (block .uninit [] [0xAA]).Answers 1 ∧
      (block .uninit [] []).stream[(block .uninit [] []).pos]? = none ∧ (block .uninit [] []).Answers 1 ∧
      (stalling 0 .uninit [] [0xAA]).answers = some 0 :=
  ⟨by decide, by decide, rfl, answers _ _ rfl, rfl, answers _ _ rfl, rfl⟩

theorem witness_NormalizeKeepsCodeBelowRange :
    (0x00FFFFFE#32) < 0x00FFFFFF#32 ∧ ∃ c t,
      runNormalize ⟨0x00FFFFFF#32, 0x00FFFFFE#32⟩ (block .uninit [] [0xFF]) = .done c t :=
  ⟨by decide, _, _, rfl⟩

/-! ### Witnesses: DECODE_BIT -/

/-- Vectors B4 and B5: CODE one below the split point, and at it; no Normalize. -/
theorem witness_AdaptiveBitTable_split :
    (block (.ready ⟨0xFFFFFFFF#32, 0x7FFFFBFF#32⟩) [(15, 1024#16)] []).readEntry 15 = 1024#16 ∧
      15 < (block (.ready ⟨0xFFFFFFFF#32, 0x7FFFFBFF#32⟩) [(15, 1024#16)] []).probDepth ∧
      (1024#16).toNat < 2048 ∧ 0x7FFFFC00#32 = (0xFFFFFFFF#32 >>> 11) * (1024#16).setWidth 32 ∧
      0x7FFFFBFF#32 < 0x7FFFFC00#32 ∧ 1056#16 = 1024#16 + ((2048#16 - 1024#16) >>> 5) ∧
      0x7FFFFC00#32 ≤ 0x7FFFFC00#32 ∧ 992#16 = 1024#16 - (1024#16 >>> 5) ∧
      0x800003FF#32 = 0xFFFFFFFF#32 - 0x7FFFFC00#32 ∧ 0x01000000 ≤ (0x7FFFFC00#32).toNat ∧
      0x01000000 ≤ (0x800003FF#32).toNat := by decide

/-- Vectors B12 and B3: Normalize fires after a 0 bit, and after a 1 bit. -/
theorem witness_AdaptiveBitTable_normalize :
    (block (.ready ⟨0x01000000#32, 0#32⟩) [(2, 31#16)] [0x11]).readEntry 2 = 31#16 ∧
      0x0003E000#32 = (0x01000000#32 >>> 11) * (31#16).setWidth 32 ∧ 0#32 < 0x0003E000#32 ∧
      (0x0003E000#32).toNat < 0x01000000 ∧
      (block (.ready ⟨0x01000000#32, 0#32⟩) [(2, 31#16)] [0x11]).stream[0]? = some 0x11#8 ∧
      (block (.ready ⟨0x01000000#32, 0#32⟩) [(2, 31#16)] [0x11]).Answers 1 ∧
      (block (.ready ⟨0x01000000#32, 0x00800000#32⟩) [(2, 1024#16)] [0x7A]).readEntry 2 = 1024#16 ∧
      0x00800000#32 = (0x01000000#32 >>> 11) * (1024#16).setWidth 32 ∧ 0x00800000#32 ≤ 0x00800000#32 ∧
      (0x01000000#32 - 0x00800000#32).toNat < 0x01000000 :=
  ⟨rfl, by decide, by decide, by decide, rfl, answers _ _ rfl, rfl, by decide, by decide, by decide⟩

/-- Vector B12 on an empty stream and with a source that does not answer, and vector B18. -/
theorem witness_AdaptiveBitMeetsEndOfStream :
    (block (.ready ⟨0x01000000#32, 0#32⟩) [(2, 31#16)] []).readEntry 2 = 31#16 ∧
      2 < (block (.ready ⟨0x01000000#32, 0#32⟩) [(2, 31#16)] []).probDepth ∧ (31#16).toNat < 2048 ∧
      (block (.ready ⟨0x01000000#32, 0#32⟩) [(2, 31#16)] []).stream[0]? = none ∧
      0x0003E000#32 = (0x01000000#32 >>> 11) * (31#16).setWidth 32 ∧ 0#32 < 0x0003E000#32 ∧
      (0x0003E000#32).toNat < 0x01000000 ∧
      (block (.ready ⟨0x01000000#32, 0#32⟩) [(2, 31#16)] []).Answers 1 ∧
      (stalling 0 (.ready ⟨0x01000000#32, 0#32⟩) [(2, 31#16)] [0x11]).answers = some 0 ∧
      (block (.ready ⟨0x01000000#32, 0x00800000#32⟩) [(2, 1024#16)] []).readEntry 2 = 1024#16 ∧
      0x00800000#32 = (0x01000000#32 >>> 11) * (1024#16).setWidth 32 ∧ 0x00800000#32 ≤ 0x00800000#32 ∧
      (0x01000000#32 - 0x00800000#32).toNat < 0x01000000 :=
  ⟨rfl, by decide, by decide, rfl, by decide, by decide, by decide, answers _ _ rfl, rfl, rfl, by decide, by decide,
    by decide⟩

theorem witness_DecodeBitChecksFirst :
    running.session = .ready ⟨0xFFFFFFFF#32, 0#32⟩ ∧ running.probDepth ≤ 16 ∧ 14 < running.probDepth ∧
      2048 ≤ (running.readEntry 14).toNat ∧ 15 < running.probDepth ∧ (running.readEntry 15).toNat < 2048 := by
  decide

theorem witness_DecodeBitFrame : ∃ t, exec (.decodeBit 15) running = .next t ∧ AnsweredOk running t :=
  ⟨_, rfl, rfl, rfl⟩

theorem witness_DecodeBitWritesWhatTheNextReads :
    ∃ t, exec (.decodeBit 15) running = .next t ∧ AnsweredOk running t := ⟨_, rfl, rfl, rfl⟩

theorem witness_SplitPointNeverWraps :
    (2047#16).toNat < 2048 ∧ 2048 ≤ (2048#32).toNat ∧ (2047#32).toNat < 2048 := by decide

theorem witness_EntryUpdateBand :
    (2047#16).toNat < 2048 ∧ 2046#16 ≤ 2047#16 ∧ 31 ≤ (31#16).toNat ∧ (2017#16).toNat ≤ 2017 := by decide

/-! ### Witnesses: DECODE_DIRECT_BITS -/

theorem witness_DirectBitsCountCheck : running.session = .ready ⟨0xFFFFFFFF#32, 0#32⟩ ∧ 32 < 33 := by decide

theorem witness_DirectBitsOfZero : running.session = .ready ⟨0xFFFFFFFF#32, 0#32⟩ := by decide

/-- RANGE where the halved RANGE is `TOP`, and where it is one below (vectors D10 and D19). -/
theorem witness_DirectBitFormula :
    (block (.ready ⟨0x02000000#32, 0x01FFFFFF#32⟩) [] []).session = .ready ⟨0x02000000#32, 0x01FFFFFF#32⟩ ∧
      0x01000000 ≤ (0x02000000#32 >>> 1).toNat ∧ (0x01FFFFFF#32 >>> 1).toNat < 0x01000000 ∧
      (block (.ready ⟨0x01FFFFFF#32, 0x01FFFFFE#32⟩) [] [0x01]).stream[0]? = some 0x01#8 ∧
      (block (.ready ⟨0x01FFFFFF#32, 0x01FFFFFE#32⟩) [] [0x01]).Answers 1 ∧
      (block (.ready ⟨0x01FFFFFF#32, 0x01FFFFFE#32⟩) [] []).stream[0]? = none ∧
      (block (.ready ⟨0x01FFFFFF#32, 0x01FFFFFE#32⟩) [] []).Answers 1 ∧
      (stalling 0 (.ready ⟨0x01FFFFFF#32, 0x01FFFFFE#32⟩) [] [0x01]).answers = some 0 :=
  ⟨rfl, by decide, by decide, rfl, answers _ _ rfl, rfl, answers _ _ rfl, rfl⟩

/-- Vectors D3, D4, D5 and D6: the largest halved RANGE, and CODE where the cases meet. -/
theorem witness_SignBitAgainstComparison :
    (0x7FFFFFFF#32).toNat ≤ 0x7FFFFFFF ∧ 0x7FFFFFFE#32 < 0x7FFFFFFF#32 ∧ 0x7FFFFFFF#32 ≤ 0x7FFFFFFF#32 ∧
      (0xFFFFFFFE#32).toNat < (0x7FFFFFFF#32).toNat + 2 ^ 31 ∧
      (0x7FFFFFFF#32).toNat + 2 ^ 31 ≤ (0xFFFFFFFF#32).toNat ∧
      (0xFFFFFFFE#32).toNat ≤ 2 * (0x7FFFFFFF#32).toNat := by decide

/-- Vectors D3 and D4 without Normalize, D8 and D9 with it. -/
theorem witness_DirectBitTable :
    0x7FFFFFFE#32 < 0xFFFFFFFF#32 ∧ 0x7FFFFFFF#32 = 0xFFFFFFFF#32 >>> 1 ∧ 0x7FFFFFFE#32 < 0x7FFFFFFF#32 ∧
      0x7FFFFFFF#32 ≤ 0x7FFFFFFF#32 ∧ 0#32 = 0x7FFFFFFF#32 - 0x7FFFFFFF#32 ∧
      0x01000000 ≤ (0x7FFFFFFF#32).toNat ∧
      (block (.ready ⟨0x01000000#32, 0x007FFFFF#32⟩) [] [0x9C]).stream[0]? = some 0x9C#8 ∧
      0x007FFFFF#32 < 0x01000000#32 ∧ 0x00800000#32 = 0x01000000#32 >>> 1 ∧ 0x007FFFFF#32 < 0x00800000#32 ∧
      (0x00800000#32).toNat < 0x01000000 ∧
      (block (.ready ⟨0x01000000#32, 0x007FFFFF#32⟩) [] [0x9C]).Answers 1 :=
  ⟨by decide, by decide, by decide, by decide, by decide, by decide, rfl, by decide, by decide, by decide, by decide,
    answers _ _ rfl⟩

theorem witness_DirectBitsOutcome :
    running.session = .ready ⟨0xFFFFFFFF#32, 0#32⟩ ∧ 32 ≤ 32 ∧ running.pos + 1 ≤ running.stream.length ∧
      running.Answers 1 := ⟨rfl, by decide, by decide, answers _ _ rfl⟩

/-- The state of vectors D14 and D20. -/
def direct : State :=
  block (.ready ⟨0xFFFFFFFF#32, 0xDEADBEEF#32⟩) [] [0x01, 0x02, 0x03, 0x04, 0x05]

/-- Vector D20: 12 bits and then 20, and the 32 together. -/
theorem witness_DirectBitsCompose :
    12 + 20 ≤ 32 ∧ ∃ t1 t2 t, exec (.decodeDirectBits 12) direct = .next t1 ∧ AnsweredOk direct t1 ∧
      exec (.decodeDirectBits 20) t1 = .next t2 ∧ AnsweredOk t1 t2 ∧
      exec (.decodeDirectBits 32) direct = .next t ∧ AnsweredOk direct t :=
  ⟨by decide, _, _, _, rfl, by decide, rfl, by decide, rfl, by decide⟩

theorem witness_DirectBitsValueBits :
    31 < 32 ∧ ∃ t, exec (.decodeDirectBits 32) direct = .next t ∧ AnsweredOk direct t :=
  ⟨by decide, _, rfl, by decide⟩

theorem witness_DirectBitsRangeOblivious :
    ∃ t t' u, exec (.decodeDirectBits 8) direct = .next t ∧ AnsweredOk direct t ∧
      exec (.decodeDirectBits 8) running = .next t' ∧ AnsweredOk running t' ∧
      direct.session = .ready ⟨0xFFFFFFFF#32, 0xDEADBEEF#32⟩ ∧ running.session = .ready ⟨0xFFFFFFFF#32, 0#32⟩ ∧
      exec (.decodeDirectBits 1) direct = .next u ∧ AnsweredOk direct u ∧
      u.session = .ready ⟨0x7FFFFFFF#32, 0x5EADBEF0#32⟩ ∧ 0x01000000 ≤ (0xFFFFFFFF#32).toNat :=
  ⟨_, _, _, rfl, by decide, rfl, by decide, rfl, rfl, rfl, by decide, by decide, by decide⟩

theorem witness_DirectBitsReadFewBytes :
    direct.session = .ready ⟨0xFFFFFFFF#32, 0xDEADBEEF#32⟩ ∧ 0x01000000 ≤ (0xFFFFFFFF#32).toNat ∧
      ∃ t, exec (.decodeDirectBits 32) direct = .next t ∧ AnsweredOk direct t :=
  ⟨rfl, by decide, _, rfl, by decide⟩

theorem witness_DirectPathHasNoTable : ∃ t, exec (.decodeDirectBits 32) running = .next t := ⟨_, rfl⟩

theorem witness_ByteReadersFrame :
    (∃ t, exec .init direct = .next t) ∧ ∃ t, exec (.decodeDirectBits 5) direct = .next t ∧ AnsweredOk direct t :=
  ⟨⟨_, rfl⟩, _, rfl, by decide⟩

/-! ### Witnesses: INIT_BIT_MODELS -/

theorem witness_TableInitSetsRegion : 16 + 0 ≤ running.probDepth ∧ 0 + 16 ≤ running.probDepth := by decide

theorem witness_TableInitChecksRegion : running.probDepth < 17 + 0 ∧ running.probDepth < 10 + 7 := by decide

theorem witness_TableInitIdempotent :
    (∃ t, exec (.initBitModels 13 3) running = .next t ∧ AnsweredOk running t) ∧ 13 ≤ 15 ∧ 15 < 13 + 3 :=
  ⟨⟨_, rfl, by decide⟩, by decide, by decide⟩

theorem witness_TableInitLeavesSession :
    0 + 16 ≤ running.probDepth ∧ 0 ≤ 15 ∧ 15 < 0 + 16 ∧ running.probDepth < 1 + 16 := by decide

/-! ### Witnesses: invariants -/

theorem witness_StepKeepsSound :
    (blockWith .uninit [(0, 5#16), (15, 6#16)] [] [.writeEntry 7 9#16]).Sound ∧
      (∃ t, step (blockWith .uninit [(0, 5#16), (15, 6#16)] [] [.writeEntry 7 9#16]) = .next t) ∧
      ({ waiting with host := [.sourceReady (some 2)] } : State).Sound ∧
      ∃ t, step { waiting with host := [.sourceReady (some 2)] } = .next t :=
  ⟨by decide, ⟨_, rfl⟩, by decide, _, rfl⟩

/-- A block of two entries at the ends of a band. -/
def twoEntries (lo hi : Entry) : State :=
  { block (.ready ⟨0x01000000#32, 0x00000000#32⟩) [(0, lo), (1, hi)] [0x01] with probDepth := 2 }

theorem witness_RangeStaysAboveTop :
    (twoEntries 8#16 2040#16).EntriesWithin 8 2040 ∧ (twoEntries 8#16 2040#16).RangeAboveTop ∧
      (∃ t, exec (.decodeBit 0) (twoEntries 8#16 2040#16) = .next t) ∧
      (∃ t, exec (.decodeBit 1) (twoEntries 8#16 2040#16) = .next t) ∧
      ({ twoEntries 8#16 2040#16 with answers := some 0 } : State).EntriesWithin 8 2040 ∧
      ∃ t p, exec (.decodeBit 0) { twoEntries 8#16 2040#16 with answers := some 0 } = .next t ∧
        t.flight = .waiting p :=
  ⟨by decide, fun c h => by cases h; decide, ⟨_, rfl⟩, ⟨_, rfl⟩, by decide, _, _, rfl, rfl⟩

/-- Vectors B14 and B15. -/
theorem witness_RangeFallsOutsideTheBand :
    2 < (block (.ready ⟨0x01000000#32, 0#32⟩) [(2, 7#16)] [0x33]).probDepth ∧
      (block (.ready ⟨0x01000000#32, 0#32⟩) [(2, 7#16)] [0x33]).stream[0]? = some 0x33#8 ∧
      (block (.ready ⟨0x01000000#32, 0#32⟩) [(2, 7#16)] [0x33]).readEntry 2 = 7#16 ∧
      (block (.ready ⟨0x01000000#32, 0#32⟩) [(2, 7#16)] [0x33]).Answers 1 ∧
      (block (.ready ⟨0x01000000#32, 0x00FFFFFF#32⟩) [(2, 2041#16)] [0x44]).readEntry 2 = 2041#16 ∧
      (block (.ready ⟨0x01000000#32, 0x00FFFFFF#32⟩) [(2, 2041#16)] [0x44]).Answers 1 :=
  ⟨by decide, rfl, rfl, answers _ _ rfl, rfl, answers _ _ rfl⟩

theorem witness_EntriesStayInTheirBand :
    (twoEntries 31#16 2017#16).EntriesWithin 31 2017 ∧
      ∃ t, exec (.decodeBit 1) (twoEntries 31#16 2017#16) = .next t := ⟨by decide, _, rfl⟩

/-- Clause 1: a DECODE_BIT inside the invariant. -/
theorem witness_CodeStaysBelowRange_decodeBit :
    running.session = .ready ⟨0xFFFFFFFF#32, 0#32⟩ ∧ 0#32 < 0xFFFFFFFF#32 ∧
      ∃ t, exec (.decodeBit 15) running = .next t ∧ t.session = .ready ⟨0xFFDFF801#32, 0#32⟩ :=
  ⟨rfl, by decide, _, rfl, by decide⟩

/-- Clause 2 one below the excepted CODE, clause 3 at it (vector D5). -/
theorem witness_CodeStaysBelowRange_direct :
    (0xFFFFFFFD#32 < 0xFFFFFFFF#32 ∧ ¬((0xFFFFFFFF#32).toNat % 2 = 1 ∧ 0xFFFFFFFD#32 = 0xFFFFFFFF#32 - 1#32) ∧
        ∃ t, exec (.decodeDirectBits 1) (block (.ready ⟨0xFFFFFFFF#32, 0xFFFFFFFD#32⟩) [] []) = .next t ∧
          t.session = .ready ⟨0x7FFFFFFF#32, 0x7FFFFFFE#32⟩) ∧
      (0xFFFFFFFE#32 = 0xFFFFFFFF#32 - 1#32 ∧ 0x02000000 ≤ (0xFFFFFFFF#32).toNat ∧
        ∃ t, exec (.decodeDirectBits 1) (block (.ready ⟨0xFFFFFFFF#32, 0xFFFFFFFE#32⟩) [] []) = .next t ∧
          t.session = .ready ⟨0x7FFFFFFF#32, 0x7FFFFFFF#32⟩) :=
  ⟨⟨by decide, by decide, _, rfl, by decide⟩, by decide, by decide, _, rfl, by decide⟩

/-- Clause 4, with CODE one below all ones. -/
theorem witness_CodeStaysBelowRange_init :
    0xFFFFFFFE#32 ≠ 0xFFFFFFFF#32 ∧ ∃ t, exec .init (block .uninit [] [0x00, 0xFF, 0xFF, 0xFF, 0xFE]) = .next t ∧
      t.session = .ready ⟨0xFFFFFFFF#32, 0xFFFFFFFE#32⟩ := ⟨by decide, _, rfl, by decide⟩

/-- A command that is answered, and one that waits. -/
theorem witness_ResultIsNeverRead :
    (∃ t, exec .init direct = .next t ∧ ∀ p, t.flight ≠ .waiting p) ∧
      ∃ t p, exec .init (stalling 2 .uninit [] [0x00, 0x12, 0x34, 0x56, 0x78]) = .next t ∧ t.flight = .waiting p :=
  ⟨⟨_, rfl, fun _ h => by cases h⟩, _, _, rfl, rfl⟩

theorem witness_ByteAccounting :
    (∃ t, exec .init direct = .next t ∧ AnsweredOk direct t) ∧
      (∃ t, exec (.decodeBit 15) running = .next t ∧ AnsweredOk running t) ∧
      (∃ t, exec (.decodeDirectBits 32) direct = .next t ∧ AnsweredOk direct t) ∧
      ∃ t, exec (.initBitModels 0 16) running = .next t ∧ AnsweredOk running t :=
  ⟨⟨_, rfl, by decide⟩, ⟨_, rfl, by decide⟩, ⟨_, rfl, by decide⟩, _, rfl, by decide⟩

/-! ### Witnesses: reset, the host, pseudo-commands -/

theorem witness_ResetKeepsMemoryAndSource :
    (blockWith .failed [(1, 7#16)] [0x01] [.reset]).host = .reset :: [] := by decide

/-- Each clause on k: INIT after no byte and after three, DECODE_BIT after its read, after its write and after all three
transfers, INIT_BIT_MODELS after two of its three entries. -/
theorem witness_ResetAbandonsCommand :
    ∃ f1 f2 f3, (blockWith .uninit [] [0, 1, 2, 3, 4] [.resetDuring 0x0100000000#40 3]).host =
        .resetDuring 0x0100000000#40 3 :: [] ∧
      (blockWith .uninit [] [0, 1, 2, 3, 4] [.resetDuring 0x0100000000#40 3]).flight = .idle ∧
      step { blockWith .uninit [] [0, 1, 2, 3, 4] [.resetDuring 0x0100000000#40 3] with
        host := .command 0x0100000000#40 :: [] } = .next f1 ∧ decode 0x0100000000#40 = .ok .init ∧
      step { blockWith (.ready ⟨0x01000000#32, 0x00800000#32⟩) [(2, 1024#16)] [0x7A]
        [.resetDuring 0x0200000002#40 1] with host := .command 0x0200000002#40 :: [] } = .next f2 ∧
      decode 0x0200000002#40 = .ok (.decodeBit 2) ∧ 1 < 2 ∧ 2 ≤ 2 ∧ 3 ≤ 3 ∧
      step { blockWith .uninit [] [] [.resetDuring 0x0400030004#40 2] with
        host := .command 0x0400030004#40 :: [] } = .next f3 ∧
      decode 0x0400030004#40 = .ok (.initBitModels 4 3) ∧ 4 + 3 ≤ 16 :=
  ⟨_, _, _, rfl, rfl, rfl, rfl, rfl, rfl, by decide, by decide, by decide, rfl, rfl, by decide⟩

theorem witness_HostPortReadsWhatWasWritten :
    15 < running.probDepth ∧ running.flight = .idle ∧
      (blockWith .uninit [] [] [.writeEntry 15 9#16]).host = .writeEntry 15 9#16 :: [] ∧
      (blockWith .uninit [] [] [.readEntry 15]).host = .readEntry 15 :: [] ∧
      (blockWith .uninit [] [] [.writeEntry 15 9#16, .readEntry 15]).host =
        .writeEntry 15 9#16 :: .readEntry 15 :: [] := by decide

theorem witness_HostPortStopsOutsideMemory :
    (blockWith .uninit [] [] [.readEntry 16]).probDepth ≤ 16 ∧ (blockWith .uninit [] [] []).flight = .idle ∧
      (blockWith .uninit [] [] [.readEntry 16]).host = .readEntry 16 :: [] ∧
      (blockWith .uninit [] [] [.writeEntry 16 0#16]).host = .writeEntry 16 0#16 :: [] := by decide

/-- Placing in a running session, INIT there, and a decode command that goes on with the session left. -/
theorem witness_SourceIsPlacedForNewSession :
    (blockWith (.ready ⟨1#32, 0#32⟩) [] [] [.positionSource 4]).host = .positionSource 4 :: [] ∧
      (blockWith (.ready ⟨1#32, 0#32⟩) [] [] [.positionSource 4]).flight = .idle ∧
      (blockWith (.ready ⟨1#32, 0#32⟩) [] [9, 1, 2, 3, 4, 5] [.positionSource 1, .command 0x0100000000#40]).host =
        .positionSource 1 :: .command 0x0100000000#40 :: [] ∧
      decode 0x0100000000#40 = .ok .init ∧
      (blockWith (.ready ⟨1#32, 0#32⟩) [] [9, 1, 2, 3, 4, 5] []).stream.drop 1 =
        1#8 :: 2#8 :: 3#8 :: 4#8 :: 5#8 :: [] ∧
      (blockWith (.ready ⟨1#32, 0#32⟩) [] [9, 1, 2, 3, 4, 5] []).Answers 5 ∧
      decode 0x0300000001#40 = .ok (.decodeDirectBits 1) ∧ isDecodeCommand (.decodeDirectBits 1) = true ∧
      (({ blockWith (.ready ⟨1#32, 0#32⟩) [] [] [.command 0x0300000001#40] with sourcePlaced := true } : State).host =
        .command 0x0300000001#40 :: []) :=
  ⟨rfl, rfl, rfl, rfl, rfl, answers _ _ rfl, rfl, rfl, rfl⟩

theorem witness_PseudoInitSetsTable :
    0 + 16 ≤ (block .uninit [] []).probDepth ∧ (block .uninit [] []).probDepth ≤ 65536 ∧
      0 + 65536 ≤ ({ block .uninit [] [] with probDepth := 65536 } : State).probDepth := by decide

end Sys2Proof.Tests
end

section
/-! PROOFS. Scope: the split point (rules R15, R57), the state after reset, and that every step keeps a state sound
(rules R25, R26, R31, R32, R43, R54, R97). -/

namespace Sys2Proof.Machine

/-! ### The split point -/

/-- The product of the split point with a legal entry leaves one part of 2048 of RANGE over (rule R15). -/
theorem splitPoint_product_le (R p : Nat) (hp : p < 2048) : R / 2048 * p ≤ R - R / 2048 := by
  have hmul : R / 2048 * p ≤ R / 2048 * 2047 := Nat.mul_le_mul_left _ (by omega)
  omega

/-- On a legal entry the split point is the exact product (rule R15). -/
theorem splitPoint_toNat_of_legal (R : Word) (p : Entry) (hp : p.toNat < 2048) :
    (splitPoint R p).toNat = R.toNat / 2048 * p.toNat := by
  have hle := splitPoint_product_le R.toNat p.toNat hp
  have hR := R.isLt
  rw [splitPoint_toNat, Nat.mod_eq_of_lt (by omega)]

/-- Settles O26: the product is at most `RANGE - (RANGE >>> 11)`, so it is not reduced modulo 2^32. -/
theorem splitPointNeverWraps : Obligations.SplitPointNeverWraps := by
  refine ⟨splitPoint_toNat, fun R p hp => ?_⟩
  have heq := splitPoint_toNat_of_legal R p hp
  have hle : (splitPoint R p).toNat ≤ R.toNat - R.toNat / 2048 :=
    heq ▸ splitPoint_product_le R.toNat p.toNat hp
  refine ⟨heq, hle, fun hR => ?_, fun hR => ?_⟩
  · rw [BitVec.lt_def]
    omega
  · apply BitVec.eq_of_toNat_eq
    rw [heq, Nat.div_eq_of_lt hR, Nat.zero_mul]
    rfl

/-! ### Soundness in two parts: the block, and what is in flight -/

/-- The memory's share of `State.Sound`: canonical form inside `[0, depth)`, the depth legal (rules R9, R32). -/
def Memory.SoundWithin (m : Memory) (depth : Nat) : Prop :=
  Memory.wf m ∧ (∀ e ∈ m, e.1 < depth) ∧ 1 ≤ depth ∧ depth ≤ 65536

/-- A write inside the memory keeps it sound (rule R34). -/
theorem Memory.SoundWithin.write {m : Memory} {depth a : Nat} (h : m.SoundWithin depth) (ha : a < depth) (v : Entry) :
    (Memory.write m a v).SoundWithin depth := by
  obtain ⟨hwf, hbound, hdepth⟩ := h
  refine ⟨Memory.wf_write m a v hwf, fun e he => ?_, hdepth⟩
  rcases Memory.mem_write m a v e he with rfl | he
  · exact ha
  · exact hbound e he

/-- `count` writes inside the memory keep it sound (rule R70). -/
theorem Memory.SoundWithin.fill {m : Memory} {depth base count : Nat} (h : m.SoundWithin depth)
    (hfit : base + count ≤ depth) (v : Entry) : (Memory.fill m base count v).SoundWithin depth := by
  obtain ⟨hwf, hbound, hdepth⟩ := h
  refine ⟨Memory.wf_fill m base count v hwf, fun e he => ?_, hdepth⟩
  rcases Memory.mem_fill m base count v e he with ⟨-, hlt⟩ | he
  · omega
  · exact hbound e he

/-- `State.Sound` without the channels: the memory, and `ERR` against `SESS` (rule R25). An update of any other field
keeps it by `Iff.rfl`. -/
def State.BlockSound (s : State) : Prop :=
  s.pm.SoundWithin s.probDepth ∧ (s.err = .ok ↔ s.session ≠ .failed)

/-- A sound block with a running session: RANGE holds a value (rule R24). -/
def State.Running (s : State) : Prop := s.BlockSound ∧ s.range.isSome = true

/-- What may wait in the session of `s`: a part of INIT, or a firing Normalize of a running session (rules R53, R54). -/
def Pending.LegalIn (p : Pending) (s : State) : Prop :=
  match p with
  | .init left _ => 1 ≤ left ∧ left ≤ 5
  | .normalize c _ left => c.range.toNat < 0x01000000 ∧ left < 32 ∧ s.range.isSome = true

/-- A state as a move leaves it before its response is transferred: sound, but that the host may be ready to take the
pending response. -/
def State.Deliverable (s : State) : Prop :=
  s.BlockSound ∧
    match s.flight with
    | .idle => True
    | .waiting p => p.LegalIn s ∧ s.answers = some 0
    | .responding r => r.value = s.result

/-- Soundness, as a deliverable state in which nothing is left to deliver. -/
theorem State.sound_iff (s : State) :
    s.Sound ↔ s.Deliverable ∧ ∀ r, s.flight = .responding r → s.accepts = false := by
  have hsplit : s.Sound ↔ s.BlockSound ∧ s.flightSound = true := by
    unfold State.Sound State.BlockSound Memory.SoundWithin
    tauto
  rw [hsplit]
  unfold State.flightSound State.Deliverable
  cases s.flight with
  | idle => simp
  | waiting p =>
    cases p with
    | init left code => simp [Pending.LegalIn, and_assoc]
    | normalize c value left =>
      simp only [Pending.LegalIn, Bool.and_eq_true, decide_eq_true_eq, reduceCtorEq, false_implies, implies_true]
      tauto
  | responding r => simp [and_assoc]

/-- The transfer of the response makes a deliverable state sound (rules R43, R97). -/
theorem State.Deliverable.deliver_sound {s : State} (h : s.Deliverable) : (State.deliver s).Sound := by
  rw [State.sound_iff]
  unfold State.deliver
  split
  next r hr =>
    cases ha : s.accepts with
    | true => exact ⟨⟨h.1, trivial⟩, fun _ hq => by cases hq⟩
    | false => exact ⟨h, fun _ _ => ha⟩
  next hn => exact ⟨h, fun r hr => absurd hr (hn r)⟩

/-! ### What ends a command -/

theorem State.ne_failed_of_range_isSome {s : State} (h : s.range.isSome = true) : s.session ≠ .failed := by
  intro hf
  simp [State.range, hf] at h

theorem State.BlockSound.running {s : State} (h : s.BlockSound) {c : Coder} (hc : s.session = .ready c) :
    s.Running :=
  ⟨h, by simp [State.range, hc]⟩

theorem State.BlockSound.respond {s : State} (h : s.BlockSound) (status : Status) (value : Word) :
    (State.respond s status value).Deliverable := ⟨h, rfl⟩

theorem State.BlockSound.startSession {s : State} (h : s.BlockSound) (c : Coder) :
    (State.startSession s c).Deliverable := ⟨⟨h.1, by simp⟩, rfl⟩

theorem State.Running.complete {s : State} (h : s.Running) (c : Coder) (value : Word) :
    (State.complete s c value).Deliverable := by
  obtain ⟨⟨hmem, herr⟩, hrange⟩ := h
  have hok : s.err = .ok := herr.mpr (State.ne_failed_of_range_isSome hrange)
  exact ⟨⟨hmem, by simp [hok]⟩, rfl⟩

/-- A fault leaves an ERR that is not 0: its own code, or the one that `FAILED` keeps (rules R25, R82). -/
theorem State.BlockSound.raise {s : State} (h : s.BlockSound) (f : FaultCode) :
    (State.raise s f).Deliverable := by
  obtain ⟨hmem, herr⟩ := h
  have hne : State.errAfter s f ≠ .ok := by
    rw [State.errAfter_eq]
    split
    · exact fun hok => herr.mp hok ‹_›
    · simp
  exact ⟨⟨hmem, by simp [hne]⟩, rfl⟩

theorem State.BlockSound.wait {s : State} (h : s.BlockSound) {p : Pending} (hp : p.LegalIn s)
    (ha : s.answers = some 0) : (State.wait s p).Deliverable := ⟨h, hp, ha⟩

/-! ### The parts of a command -/

/-- A part of a command ends well in a state that meets `P`, or at a fault in a sound block, or deliverably waiting. -/
def OpResult.EndsIn {α : Type} (P : State → Prop) : OpResult α → Prop
  | .done _ t => P t
  | .raised _ t => t.BlockSound
  | .waiting t => t.Deliverable

theorem OpResult.EndsIn.andThen {α β : Type} {P Q : State → Prop} {r : OpResult α} {go : α → State → OpResult β}
    (h : r.EndsIn P) (hgo : ∀ v t, P t → (go v t).EndsIn Q) : (r.andThen go).EndsIn Q := by
  cases r with
  | done v t => exact hgo v t h
  | raised f t => exact h
  | waiting t => exact h

theorem OpResult.EndsIn.close {α : Type} {P : State → Prop} {r : OpResult α} {go : α → State → State}
    (h : r.EndsIn P) (hgo : ∀ v t, P t → (go v t).Deliverable) : (r.close go).Deliverable := by
  cases r with
  | done v t => exact hgo v t h
  | raised f t => exact State.BlockSound.raise h f
  | waiting t => exact h

/-- The loop of INIT, with at most five bytes to come (rule R53). -/
theorem readBytes_endsIn (k : Nat) (c : Word) (s : State) (h : s.BlockSound) (hk : k ≤ 5) :
    (readBytes k c s).EndsIn State.BlockSound := by
  induction k generalizing c s with
  | zero => exact h
  | succ n ih =>
    unfold readBytes
    rcases State.bsRead_cases s with ⟨b, -, -, hr⟩ | ⟨-, -, hr⟩ | ⟨ha, hr⟩ <;> rw [hr]
    · exact ih _ (State.takeBytes s 1) h (by omega)
    · exact h
    · exact h.wait ⟨by omega, hk⟩ ha

/-- Normalize inside a command of a running session, with fewer than 32 direct bits to follow (rule R54). -/
theorem runNormalize_hold_endsIn (c : Coder) (value : Word) (left : Nat) (s : State) (h : s.Running)
    (hleft : left < 32) : ((runNormalize c s).hold (.normalize c value left)).EndsIn State.Running := by
  obtain ⟨hblock, hrange⟩ := h
  rcases runNormalize_hold_cases c (.normalize c value left) s with
    ⟨-, hr⟩ | ⟨b, -, -, -, hr⟩ | ⟨-, -, -, hr⟩ | ⟨htop, ha, hr⟩ <;> rw [hr]
  · exact ⟨hblock, hrange⟩
  · exact ⟨hblock, hrange⟩
  · exact hblock
  · exact hblock.wait ⟨(topByteZero_iff _).mp htop, hleft, hrange⟩ ha

/-- The loop of DECODE_DIRECT_BITS (rules R62, R63). -/
theorem directBits_endsIn (k : Nat) (c : Coder) (acc : Word) (s : State) (h : s.Running) (hk : k ≤ 32) :
    (directBits k c acc s).EndsIn State.Running := by
  induction k generalizing c acc s with
  | zero => exact h
  | succ n ih =>
    rw [directBits_succ]
    exact (runNormalize_hold_endsIn _ _ n s h (by omega)).andThen fun c' t ht => ih c' _ t ht (by omega)

/-! ### Whole commands -/

theorem finishInit_deliverable (k : Nat) (c : Word) (s : State) (h : s.BlockSound) (hk : k ≤ 5) :
    (finishInit k c s).Deliverable :=
  (readBytes_endsIn k c s h hk).close fun _ _ ht => ht.startSession _

theorem finishDecode_deliverable (left : Nat) (c : Coder) (acc : Word) (s : State) (h : s.Running)
    (hleft : left < 32) : (finishDecode left c acc s).Deliverable :=
  ((runNormalize_hold_endsIn c acc left s h hleft).andThen fun c' t ht =>
    directBits_endsIn left c' acc t ht (by omega)).close fun _ _ ht => ht.complete _ _

/-- The session checks keep the block sound (rule R43 lines 3 and 4). -/
theorem State.BlockSound.whenReady {s : State} (h : s.BlockSound) {run : Coder → State}
    (hrun : s.Running → ∀ c, (run c).Deliverable) : (State.whenReady s run).Deliverable := by
  rcases State.whenReady_cases s run with ⟨c, hc, hr⟩ | ⟨-, hr⟩ | ⟨-, hr⟩ <;> rw [hr]
  · exact hrun (h.running hc) c
  · exact h.raise _
  · exact h.raise _

theorem decodeBitReady_deliverable (addr : Nat) (s : State) (c : Coder) (h : s.Running) :
    (decodeBitReady addr s c).Deliverable := by
  obtain ⟨hblock, hrange⟩ := h
  rcases decodeBitReady_cases addr s c with ⟨-, hr⟩ | ⟨-, -, hr⟩ | ⟨haddr, -, hr⟩ <;> rw [hr]
  · exact hblock.raise _
  · exact hblock.raise _
  · have hwritten (v : Entry) : (State.writeEntry s addr v).Running :=
      ⟨⟨hblock.1.write haddr v, hblock.2⟩, hrange⟩
    exact (runNormalize_hold_endsIn _ _ 0 _ (hwritten _) (by omega)).close fun _ _ ht => ht.complete _ _

theorem decodeDirectBitsReady_deliverable (n : Nat) (s : State) (c : Coder) (h : s.Running) :
    (decodeDirectBitsReady n s c).Deliverable := by
  unfold decodeDirectBitsReady maxCount
  split
  · exact h.1.raise _
  · exact (directBits_endsIn n c _ s h (by omega)).close fun _ _ ht => ht.complete _ _

theorem runInitBitModels_deliverable (base count : Nat) (s : State) (h : s.BlockSound) :
    (runInitBitModels base count s).Deliverable := by
  rcases runInitBitModels_cases base count s with ⟨hfit, hr⟩ | ⟨-, hr⟩ <;> rw [hr]
  · have hfilled : (State.fillEntries s base count probInit).BlockSound := ⟨h.1.fill hfit probInit, h.2⟩
    exact hfilled.respond _ _
  · exact h.raise _

/-- Every command leads from a sound block to a state whose response can be delivered. -/
theorem exec_deliverable {i : Instr} {s t : State} (h : s.BlockSound) (he : exec i s = .next t) :
    t.Deliverable := by
  cases i with
  | init => cases he; exact finishInit_deliverable _ _ s h (le_refl 5)
  | decodeBit addr => cases he; exact h.whenReady fun hrun c => decodeBitReady_deliverable addr s c hrun
  | decodeDirectBits n => cases he; exact h.whenReady fun hrun c => decodeDirectBitsReady_deliverable n s c hrun
  | initBitModels base count => cases he; exact runInitBitModels_deliverable base count s h

/-- A command that waited goes on from wherever the host has set `answers` to (rule R97). -/
theorem resume_deliverable {p : Pending} {s : State} (h : s.BlockSound) (hp : p.LegalIn s) :
    (resume p s).Deliverable := by
  cases p with
  | init left code => exact finishInit_deliverable left code s h hp.2
  | normalize c value left =>
    obtain ⟨-, hleft, hrange⟩ := hp
    exact finishDecode_deliverable left c value s ⟨h, hrange⟩ hleft

/-! ### The moves of the host -/

theorem acceptCommand_deliverable {w : CmdWord} {s t : State} (h : s.BlockSound)
    (ha : acceptCommand w s = .next t) : t.Deliverable := by
  unfold acceptCommand at ha
  split at ha
  · split at ha
    · cases ha
    · exact exec_deliverable h ha
  · cases ha
    exact h.raise _

theorem sourceReady_deliverable (n : Option Nat) {s : State} (h : s.Deliverable) : (sourceReady n s).Deliverable := by
  obtain ⟨hblock, hflight⟩ := h
  unfold sourceReady
  cases hf : s.flight with
  | idle => exact ⟨hblock, trivial⟩
  | responding r =>
    rw [hf] at hflight
    exact ⟨hblock, hflight⟩
  | waiting p =>
    rw [hf] at hflight
    obtain ⟨hp, -⟩ := hflight
    exact resume_deliverable (s := { s with answers := n, flight := .idle }) hblock hp

/-- A command abandoned in its middle leaves the memory sound (rule R90). -/
theorem abandon_memory_sound (i : Instr) (k : Nat) {s : State} (h : s.BlockSound) :
    (abandon i k s).pm.SoundWithin (abandon i k s).probDepth := by
  cases i with
  | init => exact h.1
  | decodeDirectBits n => exact h.1
  | decodeBit addr =>
    obtain ⟨t, -, he, -, -, -, hdepth, -⟩ := exec_cases (.decodeBit addr) s
    obtain ⟨⟨hmem, -⟩, -⟩ := exec_deliverable h he
    cases he
    rw [hdepth] at hmem
    simp only [abandon]
    split
    · exact h.1
    · exact hmem
  | initBitModels base count =>
    simp only [abandon, regionFits, decide_eq_true_eq]
    split
    · exact h.1.fill (by omega) probInit
    · exact h.1

theorem resetBlock_sound {s : State} (h : s.pm.SoundWithin s.probDepth) : (State.resetBlock s).Sound :=
  (State.sound_iff _).mpr ⟨⟨⟨h, by simp⟩, trivial⟩, fun _ hr => by cases hr⟩

theorem resetDuring_sound {w : CmdWord} {k : Nat} {s t : State} (h : s.BlockSound)
    (hr : resetDuring w k s = .next t) : t.Sound := by
  unfold resetDuring at hr
  split at hr
  · split at hr
    · cases hr
    · cases hr
      exact resetBlock_sound (abandon_memory_sound _ _ h)
  · cases hr
    exact resetBlock_sound h.1

/-- The host's own write goes to an address inside the memory, or the model stops (rule R38). -/
theorem hostWrite_sound {a : Nat} {v : Entry} {s t : State} (h : s.Sound) (hw : hostWrite a v s = .next t) :
    t.Sound := by
  unfold hostWrite at hw
  split at hw
  · cases hw
    obtain ⟨⟨⟨hmem, herr⟩, hflight⟩, haccepts⟩ := (State.sound_iff s).mp h
    exact (State.sound_iff _).mpr ⟨⟨⟨hmem.write ‹_› v, herr⟩, hflight⟩, haccepts⟩
  · cases hw

/-- The host's own read changes no field that soundness speaks of (rule R33). -/
theorem hostRead_sound {a : Nat} {s t : State} (h : s.Sound) (hr : hostRead a s = .next t) : t.Sound := by
  unfold hostRead at hr
  split at hr
  · cases hr
    exact h
  · cases hr

/-- A move whose state can be delivered is sound once the response is transferred. -/
theorem delivered_sound {o : Host.Outcome State Fault Refusal} {t : State} (h : ∀ u, o = .next u → u.Deliverable)
    (hd : delivered o = .next t) : t.Sound := by
  cases o with
  | next u => cases hd; exact (h u rfl).deliver_sound
  | fault f => cases hd
  | refused r => cases hd

/-- Every move of the host keeps a state sound, also one that the block's state would not let it make now. -/
theorem hostMove_sound {e : HostEvent} {s t : State} (h : s.Sound) (hm : hostMove e s = .next t) : t.Sound := by
  have hdel : s.Deliverable := ((State.sound_iff s).mp h).1
  cases e with
  | command w => exact delivered_sound (fun u hu => acceptCommand_deliverable hdel.1 hu) hm
  | writeEntry a v => exact hostWrite_sound h hm
  | readEntry a => exact hostRead_sound h hm
  | positionSource p => cases hm; exact h
  | sourceReady n => cases hm; exact (sourceReady_deliverable n hdel).deliver_sound
  | hostReady b =>
    have hready : { s with accepts := b }.Deliverable := hdel
    cases hm
    exact hready.deliver_sound
  | reset => cases hm; exact resetBlock_sound hdel.1.1
  | resetDuring w k => exact resetDuring_sound hdel.1 hm

/-- Settles O46: a step makes the host's next move or leaves the state as it is. -/
theorem stepKeepsSound : Obligations.StepKeepsSound := by
  intro s t hs hstep
  unfold step at hstep
  split at hstep
  · cases hstep; exact hs
  next e es _ =>
    split at hstep
    · exact hostMove_sound (s := { s with host := es }) hs hstep
    · cases hstep; exact hs

/-- Settles O45: the memory is empty, the session `UNINIT` and the channels idle, at every legal depth. -/
theorem resetIsSound : Obligations.ResetIsSound := by
  have hmem : Memory.SoundWithin State.reset.pm State.reset.probDepth :=
    ⟨List.Pairwise.nil, fun _ he => absurd he List.not_mem_nil, Config.one_le_probDepth, Config.probDepth_le⟩
  exact resetBlock_sound hmem

end Sys2Proof.Machine
end

section
/-! PROOFS. Scope: what every command keeps: the entries in a band around 1024 (rules R30, R58), RANGE at `TOP` or
above (invariant (a) of rule R30). -/

namespace Sys2Proof.Machine

/-! ### Both decode commands end in the same Normalize -/

/-- DECODE_BIT past its checks is the write of the entry, then a Normalize with no direct bit after it (rules R56,
R57). -/
theorem decodeBitReady_of_legal {addr : Nat} {s : State} (c : Coder) (haddr : addr < s.probDepth)
    (hentry : (s.readEntry addr).toNat < 2048) :
    decodeBitReady addr s c =
      finishDecode 0 (adaptiveSplit c (s.readEntry addr)).coder (adaptiveSplit c (s.readEntry addr)).bit
        (s.writeEntry addr (adaptiveSplit c (s.readEntry addr)).entry) := by
  rcases decodeBitReady_cases addr s c with ⟨hout, -⟩ | ⟨-, hout, -⟩ | ⟨-, -, h⟩
  · omega
  · omega
  · rw [h, finishDecode_eq]
    cases runNormalize (adaptiveSplit c (s.readEntry addr)).coder _ <;> rfl

/-- One more direct bit is its halving, then a Normalize with the other direct bits after it (rule R63). -/
theorem directBits_succ_close (k : Nat) (c : Coder) (acc : Word) (s : State) :
    ((directBits (k + 1) c acc s).close fun r t => State.complete t r.1 r.2) =
      finishDecode k (directHalve c) ((acc <<< 1) ||| (1#32 - directSign c)) s := rfl

/-! ### What a command does to an entry -/

/-- Everything a command can do to an entry `p`: nothing, the reset of INIT_BIT_MODELS, or one of the two updates of a
legal entry by DECODE_BIT (rules R57, R70). -/
def EntryChange (p q : Entry) : Prop :=
  q = p ∨ q = probInit ∨ (p.toNat < 2048 ∧ (q = probUp p ∨ q = probDown p))

theorem EntryChange.refl (p : Entry) : EntryChange p p := .inl rfl

/-- The entry of a split is one of the two updates (rule R57). -/
theorem adaptiveSplit_entryChange (c : Coder) {p : Entry} (hp : p.toNat < 2048) :
    EntryChange p (adaptiveSplit c p).entry := by
  refine .inr (.inr ⟨hp, ?_⟩)
  unfold adaptiveSplit
  split
  · exact .inl rfl
  · exact .inr rfl

/-- A decode command from its Normalize on touches no entry (rules R54, R69). -/
theorem finishDecode_pm (left : Nat) (c : Coder) (acc : Word) (s : State) : (finishDecode left c acc s).pm = s.pm :=
  (resume_cases (.normalize c acc left) s).1

theorem decodeBitReady_entryChange (addr : Nat) (s : State) (c : Coder) (a : Nat) :
    EntryChange (s.readEntry a) ((decodeBitReady addr s c).readEntry a) := by
  rcases decodeBitReady_cases addr s c with ⟨-, h⟩ | ⟨-, -, h⟩ | ⟨haddr, hentry, -⟩
  · exact h ▸ .refl _
  · exact h ▸ .refl _
  · rw [decodeBitReady_of_legal c haddr hentry, State.readEntry_of_pm _ _ (finishDecode_pm ..),
      State.readEntry_writeEntry]
    split
    · subst a
      exact adaptiveSplit_entryChange c hentry
    · exact .refl _

theorem decodeDirectBitsReady_entryChange (n : Nat) (s : State) (c : Coder) (a : Nat) :
    EntryChange (s.readEntry a) ((decodeDirectBitsReady n s c).readEntry a) := by
  rcases decodeDirectBitsReady_cases n s c with
    ⟨-, h⟩ | ⟨-, r, j, -, -, h⟩ | ⟨-, -, -, h⟩ | ⟨-, p, j, -, -, -, h⟩ <;> exact h ▸ .refl _

theorem runInitBitModels_entryChange (base count : Nat) (s : State) (a : Nat) :
    EntryChange (s.readEntry a) ((runInitBitModels base count s).readEntry a) := by
  rcases runInitBitModels_cases base count s with ⟨-, h⟩ | ⟨-, h⟩ <;> rw [h]
  · change EntryChange _ ((s.fillEntries base count probInit).readEntry a)
    rw [State.readEntry_fillEntries]
    split
    · exact .inr (.inl rfl)
    · exact .refl _
  · exact .refl _

/-- The session checks of a decode command touch no entry (rule R43 lines 3 and 4). -/
theorem whenReady_entryChange {s : State} {run : Coder → State} (a : Nat)
    (hrun : ∀ c, EntryChange (s.readEntry a) ((run c).readEntry a)) :
    EntryChange (s.readEntry a) ((State.whenReady s run).readEntry a) := by
  rcases State.whenReady_cases s run with ⟨c, -, h⟩ | ⟨-, h⟩ | ⟨-, h⟩ <;> rw [h]
  · exact hrun c
  · exact .refl _
  · exact .refl _

theorem exec_entryChange {i : Instr} {s t : State} (he : exec i s = .next t) (a : Nat) :
    EntryChange (s.readEntry a) (t.readEntry a) := by
  cases i with
  | init =>
    cases he
    exact .inl (State.readEntry_of_pm s _ (resume_cases (.init initBytes 0#32) s).1 a)
  | decodeBit addr => cases he; exact whenReady_entryChange a fun c => decodeBitReady_entryChange addr s c a
  | decodeDirectBits n => cases he; exact whenReady_entryChange a fun c => decodeDirectBitsReady_entryChange n s c a
  | initBitModels base count => cases he; exact runInitBitModels_entryChange base count s a

/-- A band that holds `[31, 2017]` is kept by every command: above 2017 the update after a 0 bit
stands still, below 31 the one after a 1 bit (rule R58). -/
theorem exec_entriesWithin {lo hi : Nat} (hlo : lo ≤ 31) (hhi : 2017 ≤ hi) {i : Instr}
    {s t : State} (h : s.EntriesWithin lo hi) (he : exec i s = .next t) : t.EntriesWithin lo hi := by
  intro a ha
  have hdepth : t.probDepth = s.probDepth := by
    obtain ⟨u, -, hu, -, -, -, hd, -⟩ := exec_cases i s
    cases he.symm.trans hu
    exact hd
  obtain ⟨hl, hu⟩ := h a (hdepth ▸ ha)
  rcases exec_entryChange he a with hr | hr | ⟨hlegal, hr | hr⟩ <;> rw [hr]
  · exact ⟨hl, hu⟩
  · have hinit : probInit.toNat = 1024 := rfl
    omega
  · rw [probUp_toNat _ (by omega)]
    omega
  · rw [probDown_toNat]
    omega

/-- Settles O49: the band of rule R58 itself. -/
theorem entriesStayInTheirBand : Obligations.EntriesStayInTheirBand :=
  fun _ _ _ h he => exec_entriesWithin (le_refl 31) (le_refl 2017) h he

/-! ### RANGE before a Normalize -/

/-- Both parts of the split of a RANGE at `TOP` or above are at least `2^16`, eight parts of 2048 (rules R30, R57). -/
theorem adaptiveSplit_range_ge (c : Coder) (p : Entry) (hc : 0x01000000 ≤ c.range.toNat) (hlo : 8 ≤ p.toNat)
    (hhi : p.toNat ≤ 2040) : 0x00010000 ≤ (adaptiveSplit c p).coder.range.toNat := by
  have hpart : 8192 ≤ c.range.toNat / 2048 := by omega
  have hsplit := splitPoint_toNat_of_legal c.range p (by omega)
  have hlower : c.range.toNat / 2048 * 8 ≤ c.range.toNat / 2048 * p.toNat := Nat.mul_le_mul_left _ hlo
  have hupper : c.range.toNat / 2048 * p.toNat ≤ c.range.toNat / 2048 * 2040 := Nat.mul_le_mul_left _ hhi
  unfold adaptiveSplit
  split
  · rw [hsplit]
    omega
  · rw [BitVec.toNat_sub_of_le (by rw [BitVec.le_def]; omega), hsplit]
    omega

/-- Half of a RANGE at `TOP` or above is at least `2^23` (rule R63). -/
theorem directHalve_range_ge (c : Coder) (hc : 0x01000000 ≤ c.range.toNat) :
    0x00010000 ≤ (directHalve c).range.toNat := by
  unfold directHalve
  rw [half_toNat]
  omega

/-! ### RANGE after it, and while a command waits for it -/

/-- A waiting Normalize has a RANGE that its one byte lifts to `TOP` (rule R54). -/
def Pending.LiftsToTop (p : Pending) : Prop :=
  match p with
  | .init _ _ => True
  | .normalize c _ _ => 0x00010000 ≤ c.range.toNat

/-- Invariant (a) of rule R30, also for the command that waits. -/
def State.HoldsTop (s : State) : Prop := s.RangeAboveTop ∧ ∀ p, s.flight = .waiting p → p.LiftsToTop

theorem State.raise_holdsTop (s : State) (f : FaultCode) : (State.raise s f).HoldsTop :=
  ⟨nofun, nofun⟩

theorem State.complete_holdsTop (s : State) {c : Coder} (value : Word) (hc : 0x01000000 ≤ c.range.toNat) :
    (State.complete s c value).HoldsTop :=
  ⟨fun _ hd => by cases hd; exact hc, nofun⟩

theorem State.startSession_holdsTop (s : State) (code : Word) :
    (State.startSession s ⟨rangeInit, code⟩).HoldsTop :=
  ⟨fun _ hd => by cases hd; exact (by decide : 0x01000000 ≤ rangeInit.toNat), nofun⟩

theorem State.wait_holdsTop {s : State} {p : Pending} (hs : s.RangeAboveTop) (hp : p.LiftsToTop) :
    (State.wait s p).HoldsTop :=
  ⟨hs, fun _ hq => by cases hq; exact hp⟩

theorem finishInit_holdsTop (k : Nat) (code : Word) (s : State) (hs : s.RangeAboveTop) :
    (finishInit k code s).HoldsTop := by
  induction k generalizing code s with
  | zero => exact State.startSession_holdsTop s code
  | succ k ih =>
    rw [finishInit_succ]
    rcases State.bsRead_cases s with ⟨b, -, -, hr⟩ | ⟨-, -, hr⟩ | ⟨-, hr⟩ <;> rw [hr]
    · exact ih (shiftIn code b) (State.takeBytes s 1) hs
    · exact State.raise_holdsTop s _
    · exact State.wait_holdsTop hs trivial

/-- A byte shifted into a RANGE between `2^16` and `TOP` lifts it to `TOP` (rule R54). -/
theorem shiftLeft_range_ge {R : Word} (hlo : 0x00010000 ≤ R.toNat) (hhi : R.toNat < 0x01000000) :
    0x01000000 ≤ (R <<< 8).toNat := by
  rw [BitVec.toNat_shiftLeft, Nat.shiftLeft_eq]
  omega

/-- A decode command from its Normalize on, where the direct bits after it hold RANGE at `TOP`. -/
theorem finishDecode_holdsTop_of_directBits {left : Nat} {c : Coder} {acc : Word} {s : State}
    (hs : s.RangeAboveTop) (hc : 0x00010000 ≤ c.range.toNat)
    (hrest : ∀ (d : Coder) (t : State), 0x01000000 ≤ d.range.toNat → t.RangeAboveTop →
      ((directBits left d acc t).close fun r u => State.complete u r.1 r.2).HoldsTop) :
    (finishDecode left c acc s).HoldsTop := by
  rw [finishDecode_eq]
  rcases runNormalize_cases c s with ⟨htop, h⟩ | ⟨b, htop, -, -, h⟩ | ⟨-, -, -, h⟩ | ⟨-, -, h⟩ <;> rw [h]
  · have hge : ¬c.range.toNat < 0x01000000 := fun hlt => by simp [(topByteZero_iff _).mpr hlt] at htop
    exact hrest c s (by omega) hs
  · exact hrest _ (State.takeBytes s 1) (shiftLeft_range_ge hc ((topByteZero_iff _).mp htop)) hs
  · exact State.raise_holdsTop s _
  · exact State.wait_holdsTop hs hc

theorem directBits_holdsTop (k : Nat) (c : Coder) (acc : Word) (s : State) (hs : s.RangeAboveTop)
    (hc : 0x01000000 ≤ c.range.toNat) :
    ((directBits k c acc s).close fun r t => State.complete t r.1 r.2).HoldsTop := by
  induction k generalizing c acc s with
  | zero => exact State.complete_holdsTop s acc hc
  | succ k ih =>
    rw [directBits_succ_close]
    exact finishDecode_holdsTop_of_directBits hs (directHalve_range_ge c hc) fun d t hd ht => ih d _ t ht hd

theorem finishDecode_holdsTop {left : Nat} {c : Coder} {acc : Word} {s : State} (hs : s.RangeAboveTop)
    (hc : 0x00010000 ≤ c.range.toNat) : (finishDecode left c acc s).HoldsTop :=
  finishDecode_holdsTop_of_directBits hs hc fun d t hd ht => directBits_holdsTop left d acc t ht hd

theorem decodeBitReady_holdsTop (addr : Nat) {s : State} {c : Coder} (hb : s.EntriesWithin 8 2040)
    (hs : s.RangeAboveTop) (hc : 0x01000000 ≤ c.range.toNat) : (decodeBitReady addr s c).HoldsTop := by
  rcases decodeBitReady_cases addr s c with ⟨-, h⟩ | ⟨-, -, h⟩ | ⟨haddr, hentry, -⟩
  · exact h ▸ State.raise_holdsTop s _
  · exact h ▸ State.raise_holdsTop s _
  · obtain ⟨hlo, hhi⟩ := hb addr haddr
    rw [decodeBitReady_of_legal c haddr hentry]
    exact finishDecode_holdsTop hs (adaptiveSplit_range_ge c _ hc hlo hhi)

theorem decodeDirectBitsReady_holdsTop (n : Nat) {s : State} {c : Coder} (hs : s.RangeAboveTop)
    (hc : 0x01000000 ≤ c.range.toNat) : (decodeDirectBitsReady n s c).HoldsTop := by
  unfold decodeDirectBitsReady
  split
  · exact State.raise_holdsTop s _
  · exact directBits_holdsTop n c _ s hs hc

/-- The session checks of a decode command (rule R43 lines 3 and 4). -/
theorem whenReady_holdsTop {s : State} {run : Coder → State} (hs : s.RangeAboveTop)
    (hrun : ∀ c, 0x01000000 ≤ c.range.toNat → (run c).HoldsTop) : (State.whenReady s run).HoldsTop := by
  rcases State.whenReady_cases s run with ⟨c, hc, h⟩ | ⟨-, h⟩ | ⟨-, h⟩ <;> rw [h]
  · exact hrun c (hs c hc)
  · exact State.raise_holdsTop s _
  · exact State.raise_holdsTop s _

theorem exec_holdsTop {i : Instr} {s t : State} (hb : s.EntriesWithin 8 2040) (hs : s.RangeAboveTop)
    (he : exec i s = .next t) : t.HoldsTop := by
  cases i with
  | init => cases he; exact finishInit_holdsTop _ _ s hs
  | decodeBit addr => cases he; exact whenReady_holdsTop hs fun c hc => decodeBitReady_holdsTop addr hb hs hc
  | decodeDirectBits n => cases he; exact whenReady_holdsTop hs fun c hc => decodeDirectBitsReady_holdsTop n hs hc
  | initBitModels base count =>
    cases he
    rcases runInitBitModels_cases base count s with ⟨-, h⟩ | ⟨-, h⟩ <;> rw [h]
    · exact ⟨hs, nofun⟩
    · exact State.raise_holdsTop s _

theorem resume_holdsTop {p : Pending} {s : State} (hs : s.RangeAboveTop) (hp : p.LiftsToTop) :
    (resume p s).HoldsTop := by
  cases p with
  | init left code => exact finishInit_holdsTop left code s hs
  | normalize c value left => exact finishDecode_holdsTop hs hp

/-- A command that is taken up again touches no entry: DECODE_BIT has written its own before it waits (rule R57). -/
theorem resume_entriesWithin {lo hi : Nat} (p : Pending) {s : State} (h : s.EntriesWithin lo hi) :
    (resume p s).EntriesWithin lo hi := by
  obtain ⟨hpm, -, -, -, -, hdepth, -⟩ := resume_cases p s
  intro a ha
  rw [State.readEntry_of_pm s _ hpm]
  exact h a (hdepth ▸ ha)

/-- Settles O47: the entries by `exec_entriesWithin`, RANGE by `State.HoldsTop`, which also says of a command that
waits that its byte will lift RANGE to `TOP`. -/
theorem rangeStaysAboveTop : Obligations.RangeStaysAboveTop := by
  intro s t i hb hs he
  have hentries : t.EntriesWithin 8 2040 := exec_entriesWithin (by decide) (by decide) hb he
  obtain ⟨hrange, hwaits⟩ := exec_holdsTop hb hs he
  refine ⟨⟨hentries, hrange⟩, fun p m hp => ⟨?_, ?_⟩⟩
  · exact resume_entriesWithin p (s := { t with answers := m }) hentries
  · exact (resume_holdsTop (s := { t with answers := m }) hrange (hwaits p hp)).1

end Sys2Proof.Machine
end

section
/-! PROOFS. Scope: one Normalize of one bit: `CODE < RANGE` (invariant (b) of rule R30, rules R53, R54, R57, R63), and
the ends of the band in which RANGE stays at `TOP` (C3). -/

namespace Sys2Proof.Machine

/-! ### Normalize -/

/-- Settles O20: `CODE + 1 ≤ RANGE` becomes `256 * CODE + 256 ≤ 256 * RANGE`, and the byte is below 256. -/
theorem normalizeKeepsCodeBelowRange : Obligations.NormalizeKeepsCodeBelowRange := by
  intro c c' s s' hlt hdone
  rcases runNormalize_cases c s with ⟨-, h⟩ | ⟨b, htop, -, -, h⟩ | ⟨-, -, -, h⟩ | ⟨-, -, h⟩ <;>
    cases h.symm.trans hdone
  · exact hlt
  · rw [topByteZero_iff] at htop
    rw [BitVec.lt_def] at hlt ⊢
    have hb := b.isLt
    rw [shiftIn_toNat, BitVec.toNat_shiftLeft, Nat.shiftLeft_eq]
    omega

/-! ### The registers before Normalize -/

/-- Both parts of a split keep `CODE < RANGE`: `CODE` falls into the part that is taken (rule R57). -/
theorem adaptiveSplit_code_lt {c : Coder} (p : Entry) (hc : c.code < c.range) :
    (adaptiveSplit c p).coder.code < (adaptiveSplit c p).coder.range := by
  unfold adaptiveSplit
  split
  next hbelow => exact of_decide_eq_true hbelow
  next hbelow =>
    have hge : splitPoint c.range p ≤ c.code := by simpa [belowBound] using hbelow
    rw [BitVec.le_def] at hge
    rw [BitVec.lt_def] at hc ⊢
    rw [BitVec.toNat_sub_of_le (by rw [BitVec.le_def]; omega), BitVec.toNat_sub_of_le (by rw [BitVec.le_def]; omega)]
    omega

/-- `CODE` below the halved RANGE stays (rules R63, R64). -/
theorem directHalve_of_lt {c : Coder} (h : c.code.toNat < c.range.toNat / 2) :
    directHalve c = ⟨c.range >>> 1, c.code⟩ := by
  have hR := c.range.isLt
  have hsign : directSign c = 1#32 := by
    apply BitVec.eq_of_toNat_eq
    unfold directSign
    rw [signBit_toNat, half_toNat]
    change _ = 1
    omega
  simp [directHalve, hsign]

/-- `CODE` between the halved RANGE and RANGE is lowered by it (rules R63, R64). -/
theorem directHalve_of_ge {c : Coder} (hge : c.range.toNat / 2 ≤ c.code.toNat) (hlt : c.code < c.range) :
    directHalve c = ⟨c.range >>> 1, c.code - (c.range >>> 1)⟩ := by
  have hR := c.range.isLt
  rw [BitVec.lt_def] at hlt
  have hsign : directSign c = 0#32 := by
    apply BitVec.eq_of_toNat_eq
    unfold directSign
    rw [signBit_toNat, half_toNat]
    change _ = 0
    omega
  have hmask : (0#32 - 1#32 : Word) = BitVec.allOnes 32 := rfl
  simp only [directHalve, hsign, hmask, BitVec.and_allOnes]

/-- CODE of a lowered direct bit, as a number. -/
theorem sub_half_toNat {R C : Word} (h : R.toNat / 2 ≤ C.toNat) : (C - (R >>> 1)).toNat = C.toNat - R.toNat / 2 := by
  rw [BitVec.toNat_sub_of_le (by rw [BitVec.le_def, half_toNat]; exact h), half_toNat]

/-- An odd RANGE is not 0. -/
theorem sub_one_toNat_of_odd {R : Word} (h : R.toNat % 2 = 1) : (R - 1#32).toNat = R.toNat - 1 := by
  rw [BitVec.toNat_sub_of_le (by rw [BitVec.le_def]; change 1 ≤ _; omega)]
  rfl

/-- The halving keeps `CODE < RANGE` but for an odd RANGE with `CODE` one below it (rule R30). -/
theorem directHalve_code_lt {c : Coder} (hc : c.code < c.range)
    (hexcept : ¬(c.range.toNat % 2 = 1 ∧ c.code = c.range - 1#32)) :
    (directHalve c).code < (directHalve c).range := by
  rcases Nat.lt_or_ge c.code.toNat (c.range.toNat / 2) with h | h
  · rw [directHalve_of_lt h, BitVec.lt_def, half_toNat]
    exact h
  · have hlt := BitVec.lt_def.mp hc
    have hne : ¬(c.range.toNat % 2 = 1 ∧ c.code.toNat = c.range.toNat - 1) := fun ⟨hodd, heq⟩ =>
      hexcept ⟨hodd, BitVec.eq_of_toNat_eq (by rw [sub_one_toNat_of_odd hodd, heq])⟩
    rw [directHalve_of_ge h hc, BitVec.lt_def, sub_half_toNat h, half_toNat]
    omega

/-- In the excepted case CODE becomes RANGE (rule R30). -/
theorem directHalve_code_eq {c : Coder} (hodd : c.range.toNat % 2 = 1) (heq : c.code = c.range - 1#32) :
    (directHalve c).code = (directHalve c).range := by
  have hcode : c.code.toNat = c.range.toNat - 1 := by rw [heq, sub_one_toNat_of_odd hodd]
  have hge : c.range.toNat / 2 ≤ c.code.toNat := by omega
  apply BitVec.eq_of_toNat_eq
  rw [directHalve_of_ge hge (BitVec.lt_def.mpr (by omega)), sub_half_toNat hge, half_toNat]
  omega

/-! ### One bit as a whole -/

/-- DECODE_DIRECT_BITS of one bit is its halving, then a Normalize with no direct bit after it (rule R63). -/
theorem decodeDirectBitsReady_one (s : State) (c : Coder) :
    decodeDirectBitsReady 1 s c =
      finishDecode 0 (directHalve c) ((0#32 <<< 1) ||| (1#32 - directSign c)) s := rfl

/-- One Normalize keeps `CODE < RANGE`, of the registers it stands on if it ends, of the session's if it waits. -/
theorem finishDecode_zero_code_lt {c c' : Coder} {acc : Word} {s : State}
    (hs : ∀ d, s.session = .ready d → d.code < d.range) (hc : c.code < c.range)
    (h : (finishDecode 0 c acc s).session = .ready c') : c'.code < c'.range := by
  rw [finishDecode_eq] at h
  rcases runNormalize_cases c s with ⟨-, hr⟩ | ⟨b, -, -, -, hr⟩ | ⟨-, -, -, hr⟩ | ⟨-, -, hr⟩ <;> rw [hr] at h
  · cases h
    exact hc
  · cases h
    exact normalizeKeepsCodeBelowRange c _ s _ hc hr
  · cases h
  · exact hs c' h

/-- A Normalize that does not fire leaves the registers it stands on. -/
theorem finishDecode_zero_of_ge {c : Coder} (acc : Word) (s : State) (h : 0x01000000 ≤ c.range.toNat) :
    finishDecode 0 c acc s = State.complete s c acc := by
  rcases runNormalize_cases c s with ⟨-, hr⟩ | ⟨b, htop, -⟩ | ⟨htop, -⟩ | ⟨htop, -⟩
  · rw [finishDecode_eq, hr]
    rfl
  all_goals
    rw [topByteZero_iff] at htop
    omega

/-- A Normalize that fires and gets its byte. -/
theorem finishDecode_zero_of_byte {c : Coder} (acc : Word) {s : State} {x : Byte} (h : c.range.toNat < 0x01000000)
    (hx : s.stream[s.pos]? = some x) (ha : s.Answers 1) :
    finishDecode 0 c acc s = State.complete (State.takeBytes s 1) ⟨c.range <<< 8, shiftIn c.code x⟩ acc := by
  rcases runNormalize_cases c s with ⟨htop, -⟩ | ⟨b, -, -, hb, hr⟩ | ⟨-, -, hb, -⟩ | ⟨-, h0, -⟩
  · rw [(topByteZero_iff _).mpr h] at htop
    cases htop
  · cases hb.symm.trans hx
    rw [finishDecode_eq, hr]
    rfl
  · cases hb.symm.trans hx
  · exact absurd (ha 0 h0) (by omega)

/-- INIT that succeeds leaves RANGE all ones (rule R53). -/
theorem runInit_range {s : State} {c : Coder} (hok : AnsweredOk s (runInit s)) (hc : (runInit s).session = .ready c) :
    c.range = 0xFFFFFFFF#32 := by
  rcases runInit_cases s with ⟨v, -, -, h⟩ | ⟨-, h⟩ | ⟨p, j, -, -, h⟩
  · rw [h] at hc
    cases hc
    rfl
  · rw [h] at hc
    cases hc
  · rw [h] at hok
    cases hok.1

/-- Settles O50: each clause by the registers before Normalize and what Normalize then does. -/
theorem codeStaysBelowRange : Obligations.CodeStaysBelowRange := by
  intro s t c' ht
  have hsession {c : Coder} (hs : s.session = .ready c) (hc : c.code < c.range) (d : Coder)
      (hd : s.session = .ready d) : d.code < d.range := by
    cases hs.symm.trans hd
    exact hc
  refine ⟨fun addr c hs hc he => ?_, fun c hs hc hexcept he => ?_, fun c hs hodd heq hge he => ?_,
    fun he hok hne => ?_⟩
  · rw [execDecodeBit_ready s addr c hs] at he
    cases he
    rcases decodeBitReady_cases addr s c with ⟨-, h⟩ | ⟨-, -, h⟩ | ⟨haddr, hentry, -⟩
    · rw [h] at ht; cases ht
    · rw [h] at ht; cases ht
    · rw [decodeBitReady_of_legal c haddr hentry] at ht
      exact finishDecode_zero_code_lt (s := s.writeEntry addr _) (hsession hs hc) (adaptiveSplit_code_lt _ hc) ht
  · rw [execDecodeDirectBits_ready s 1 c hs, decodeDirectBitsReady_one] at he
    cases he
    exact finishDecode_zero_code_lt (hsession hs hc) (directHalve_code_lt hc hexcept) ht
  · have hhalf : 0x01000000 ≤ (directHalve c).range.toNat := by
      unfold directHalve
      rw [half_toNat]
      omega
    rw [execDecodeDirectBits_ready s 1 c hs, decodeDirectBitsReady_one, finishDecode_zero_of_ge _ s hhalf] at he
    cases he
    cases ht
    exact directHalve_code_eq hodd heq
  · cases he
    have hrange := runInit_range hok ht
    rw [hrange]
    bv_omega

/-! ### Outside the band -/

/-- DECODE_BIT on a legal entry whose Normalize fires and gets its byte: RANGE is that of the split, eight places up
(rules R54, R57). -/
theorem decodeBit_range_of_byte {s : State} {addr : Nat} {c : Coder} {p : Entry} {R : Word} {x : Byte}
    (hs : s.session = .ready c) (haddr : addr < s.probDepth) (hp : s.readEntry addr = p) (hlegal : p.toNat < 2048)
    (hR : (adaptiveSplit c p).coder.range = R) (hfires : R.toNat < 0x01000000) (hx : s.stream[s.pos]? = some x)
    (ha : s.Answers 1) : ∃ t, exec (.decodeBit addr) s = .next t ∧ t.range = some (R <<< 8) := by
  subst hp hR
  refine ⟨_, execDecodeBit_ready s addr c hs, ?_⟩
  rw [decodeBitReady_of_legal c haddr hlegal,
    finishDecode_zero_of_byte (s := s.writeEntry addr _) _ hfires hx ha]
  rfl

/-- Settles O48: either entry leaves RANGE `0x0000E000`, seven parts of 2048, before Normalize. -/
theorem rangeFallsOutsideTheBand : Obligations.RangeFallsOutsideTheBand :=
  fun _ _ _ haddr hx ha =>
    ⟨fun hs hp => decodeBit_range_of_byte (R := 0x0000E000#32) hs haddr hp (by decide) (by decide) (by decide) hx ha,
      fun hs hp => decodeBit_range_of_byte (R := 0x0000E000#32) hs haddr hp (by decide) (by decide) (by decide) hx ha⟩

end Sys2Proof.Machine
end

section
/-! PROOFS. Scope: RESULT is written and never read (rule R26): every part of a command commutes with a change of it,
up to the response that overwrites it. -/

namespace Sys2Proof.Machine

/-- The state with another value in RESULT. -/
def State.withResult (s : State) (v : Word) : State := { s with result := v }

@[simp] theorem State.withResult_session (s : State) (v : Word) : (s.withResult v).session = s.session := rfl
@[simp] theorem State.withResult_stream (s : State) (v : Word) : (s.withResult v).stream = s.stream := rfl
@[simp] theorem State.withResult_pos (s : State) (v : Word) : (s.withResult v).pos = s.pos := rfl
@[simp] theorem State.withResult_answers (s : State) (v : Word) : (s.withResult v).answers = s.answers := rfl
@[simp] theorem State.withResult_probDepth (s : State) (v : Word) : (s.withResult v).probDepth = s.probDepth := rfl
@[simp] theorem State.withResult_takeBytes (s : State) (v : Word) (k : Nat) :
    State.takeBytes (s.withResult v) k = (State.takeBytes s k).withResult v := rfl

/-- A part of a command that has ended with another value in RESULT. -/
def OpResult.withResult {α : Type} (r : OpResult α) (v : Word) : OpResult α :=
  match r with
  | .done x s => .done x (s.withResult v)
  | .raised f s => .raised f (s.withResult v)
  | .waiting s => .waiting (s.withResult v)

/-- An answer of the Byte Source to a block with another value in RESULT. -/
def ByteAnswer.withResult (r : ByteAnswer) (v : Word) : ByteAnswer :=
  match r with
  | .byte b s => .byte b (s.withResult v)
  | .eos => .eos
  | .noAnswer => .noAnswer

/-- What is left of another value in RESULT after a command: a response has overwritten it, a command that waits has
not (rules R26, R31 (c)). -/
def State.keepingResult (s : State) (v : Word) : State :=
  match s.flight with
  | .waiting _ => s.withResult v
  | _ => s

theorem State.keepingResult_of_waiting {s : State} {p : Pending} (h : s.flight = .waiting p) (v : Word) :
    s.keepingResult v = s.withResult v := by
  simp only [State.keepingResult, h]

theorem State.keepingResult_of_not_waiting {s : State} (h : ∀ p, s.flight ≠ .waiting p) (v : Word) :
    s.keepingResult v = s := by
  unfold State.keepingResult
  split
  next p hp => exact absurd hp (h p)
  next => rfl

/-! ### The parts of a command -/

theorem bsRead_withResult (s : State) (v : Word) :
    State.bsRead (s.withResult v) = (State.bsRead s).withResult v := by
  rcases State.bsRead_cases s with ⟨b, ha, hb, h⟩ | ⟨ha, hb, h⟩ | ⟨ha, h⟩ <;> rw [h]
  · simp [State.bsRead, ha, hb, ByteAnswer.withResult]
  · simp [State.bsRead, ha, hb, ByteAnswer.withResult]
  · simp [State.bsRead, ha, ByteAnswer.withResult]

theorem readBytes_withResult (k : Nat) (c : Word) (s : State) (v : Word) :
    readBytes k c (s.withResult v) = (readBytes k c s).withResult v := by
  induction k generalizing c s with
  | zero => rfl
  | succ k ih =>
    unfold readBytes
    rw [bsRead_withResult]
    cases State.bsRead s with
    | byte b t => exact ih _ t
    | eos => rfl
    | noAnswer => rfl

theorem runNormalize_withResult (c : Coder) (s : State) (v : Word) :
    runNormalize c (s.withResult v) = (runNormalize c s).withResult v := by
  unfold runNormalize
  rw [bsRead_withResult]
  split
  · cases State.bsRead s <;> rfl
  · rfl

theorem OpResult.hold_withResult {α : Type} (r : OpResult α) (p : Pending) (v : Word) :
    (r.withResult v).hold p = (r.hold p).withResult v := by
  cases r <;> rfl

theorem OpResult.andThen_withResult {α β : Type} (r : OpResult α) {go : α → State → OpResult β} {v : Word}
    (hgo : ∀ x s, go x (s.withResult v) = (go x s).withResult v) :
    (r.withResult v).andThen go = (r.andThen go).withResult v := by
  cases r with
  | done x s => exact hgo x s
  | raised f s => rfl
  | waiting s => rfl

theorem directBits_withResult (k : Nat) (c : Coder) (acc : Word) (s : State) (v : Word) :
    directBits k c acc (s.withResult v) = (directBits k c acc s).withResult v := by
  induction k generalizing c acc s with
  | zero => rfl
  | succ k ih =>
    rw [directBits_succ, directBits_succ, runNormalize_withResult, OpResult.hold_withResult]
    exact OpResult.andThen_withResult _ fun c' t => ih c' _ t

/-! ### Their ends -/

/-- A part that only reads bytes, closed by a response: where it waits, it waits with RESULT as it was. -/
theorem OnlyReads.close_withResult {α : Type} {k : Nat} {s : State} {r : OpResult α} {go : α → State → State}
    {v : Word} (h : OnlyReads k s r) (hgo : ∀ x t, go x (t.withResult v) = (go x t).keepingResult v) :
    (r.withResult v).close go = (r.close go).keepingResult v := by
  cases r with
  | done x t => exact hgo x t
  | raised f t => rfl
  | waiting t =>
    obtain ⟨p, j, -, -, rfl⟩ := h
    rfl

theorem finishInit_withResult (k : Nat) (c : Word) (s : State) (v : Word) :
    finishInit k c (s.withResult v) = (finishInit k c s).keepingResult v := by
  unfold finishInit
  rw [readBytes_withResult]
  exact (readBytes_onlyReads k c s).close_withResult fun _ _ => rfl

theorem finishDecode_withResult (left : Nat) (c : Coder) (acc : Word) (s : State) (v : Word) :
    finishDecode left c acc (s.withResult v) = (finishDecode left c acc s).keepingResult v := by
  unfold finishDecode
  rw [runNormalize_withResult, OpResult.hold_withResult,
    OpResult.andThen_withResult _ fun c' t => directBits_withResult left c' acc t v]
  exact (finishDecode_onlyReads left c acc s).close_withResult fun _ _ => rfl

theorem decodeBitReady_withResult (addr : Nat) (s : State) (c : Coder) (v : Word) :
    decodeBitReady addr (s.withResult v) c = (decodeBitReady addr s c).keepingResult v := by
  rcases decodeBitReady_cases addr s c with ⟨haddr, h⟩ | ⟨haddr, hentry, h⟩ | ⟨haddr, hentry, -⟩
  · rw [h]
    exact if_pos haddr
  · rw [h]
    exact (if_neg (Nat.not_le.mpr haddr)).trans (if_pos hentry)
  · rw [decodeBitReady_of_legal c haddr hentry, ← finishDecode_withResult]
    exact decodeBitReady_of_legal (s := s.withResult v) c haddr hentry

theorem decodeDirectBitsReady_withResult (n : Nat) (s : State) (c : Coder) (v : Word) :
    decodeDirectBitsReady n (s.withResult v) c = (decodeDirectBitsReady n s c).keepingResult v := by
  unfold decodeDirectBitsReady
  split
  · rfl
  · rw [directBits_withResult]
    exact (directBits_onlyReads n c 0#32 s).close_withResult fun _ _ => rfl

theorem runInitBitModels_withResult (base count : Nat) (s : State) (v : Word) :
    runInitBitModels base count (s.withResult v) = (runInitBitModels base count s).keepingResult v := by
  rcases runInitBitModels_cases base count s with ⟨hfit, h⟩ | ⟨hout, h⟩ <;> rw [h]
  · exact if_pos (decide_eq_true hfit)
  · exact if_neg fun hfit => Nat.not_le.mpr hout (of_decide_eq_true hfit)

/-- The session checks of a decode command (rule R43 lines 3 and 4). -/
theorem whenReady_withResult {s : State} {v : Word} {run : State → Coder → State}
    (hrun : ∀ c, run (s.withResult v) c = (run s c).keepingResult v) :
    State.whenReady (s.withResult v) (run (s.withResult v)) = (State.whenReady s (run s)).keepingResult v := by
  simp only [State.whenReady, State.withResult_session]
  cases s.session with
  | uninit => rfl
  | ready c => exact hrun c
  | failed => rfl

theorem exec_withResult {i : Instr} {s t : State} (he : exec i s = .next t) (v : Word) :
    exec i (s.withResult v) = .next (t.keepingResult v) := by
  cases i with
  | init => cases he; exact congrArg _ (finishInit_withResult _ _ s v)
  | decodeBit addr => cases he; exact congrArg _ (whenReady_withResult fun c => decodeBitReady_withResult addr s c v)
  | decodeDirectBits n =>
    cases he; exact congrArg _ (whenReady_withResult fun c => decodeDirectBitsReady_withResult n s c v)
  | initBitModels base count => cases he; exact congrArg _ (runInitBitModels_withResult base count s v)

/-- Settles O51: a command that is answered has overwritten RESULT, one that waits has left it alone. -/
theorem resultIsNeverRead : Obligations.ResultIsNeverRead := by
  intro s i v
  obtain ⟨t, j, he, -, -, -, -, -, -, -, hends⟩ := exec_cases i s
  have hv : exec i { s with result := v } = .next (t.keepingResult v) := exec_withResult he v
  refine ⟨t, he, fun hanswered => ?_, fun p hp => ⟨?_, ?_⟩⟩
  · rw [hv, State.keepingResult_of_not_waiting hanswered]
  · rcases hends with ⟨⟨hf, -⟩, -⟩ | ⟨f, ⟨hf, -⟩, -⟩ | ⟨-, -, -, -, hresult⟩
    · cases hf.symm.trans hp
    · cases hf.symm.trans hp
    · exact hresult
  · exact hv.trans (congrArg _ (State.keepingResult_of_waiting hp v))

end Sys2Proof.Machine
end

section
/-! PROOFS. Scope: the response to a command word (rules R26, R43, R97), taking a fault (rule R82), the numbers at the
outputs (rules R52, R77), reset (rules R29, R90). -/

namespace Sys2Proof.Machine

/-! ### Where a command waits -/

/-- A part that only reads bytes, at most `k`, closed by a response: it waits only where the Byte Source delivers
fewer than `k` (rules R31 (c), R97). -/
theorem OnlyReads.answers_of_waiting {α : Type} {k : Nat} {s : State} {r : OpResult α} {go : α → State → State}
    {p : Pending} (h : OnlyReads k s r) (hgo : ∀ v t, ∃ q, (go v t).flight = .responding q)
    (hp : (r.close go).flight = .waiting p) : ∃ j, j < k ∧ s.answers = some j := by
  cases r with
  | done v t =>
    obtain ⟨q, hq⟩ := hgo v t
    cases hq.symm.trans hp
  | raised f t => cases hp
  | waiting t =>
    obtain ⟨-, j, hj, ha, -⟩ := h
    exact ⟨j, hj, ha⟩

theorem decodeBitReady_answers_of_waiting {addr : Nat} {s : State} {c : Coder} {p : Pending}
    (hp : (decodeBitReady addr s c).flight = .waiting p) : ∃ j, j < 1 ∧ s.answers = some j := by
  rcases decodeBitReady_cases addr s c with ⟨-, h⟩ | ⟨-, -, h⟩ | ⟨haddr, hentry, -⟩
  · rw [h] at hp; cases hp
  · rw [h] at hp; cases hp
  · rw [decodeBitReady_of_legal c haddr hentry] at hp
    exact (finishDecode_onlyReads 0 _ _ (s.writeEntry addr _)).answers_of_waiting (fun _ _ => ⟨_, rfl⟩) hp

theorem decodeDirectBitsReady_answers_of_waiting {n : Nat} {s : State} {c : Coder} {p : Pending}
    (hp : (decodeDirectBitsReady n s c).flight = .waiting p) : ∃ j, j < 32 ∧ s.answers = some j := by
  rcases decodeDirectBitsReady_cases n s c with
    ⟨-, h⟩ | ⟨-, r, j, -, -, h⟩ | ⟨-, -, -, h⟩ | ⟨hn, q, j, hj, ha, -, h⟩
  · rw [h] at hp; cases hp
  · rw [h] at hp; cases hp
  · rw [h] at hp; cases hp
  · exact ⟨j, by omega, ha⟩

/-- A decode command that waits has a running session (rule R43 lines 3 and 4). -/
theorem whenReady_waiting {s : State} {run : Coder → State} {p : Pending}
    (hp : (State.whenReady s run).flight = .waiting p) : ∃ c, (run c).flight = .waiting p := by
  rcases State.whenReady_cases s run with ⟨c, -, h⟩ | ⟨-, h⟩ | ⟨-, h⟩ <;> rw [h] at hp
  · exact ⟨c, hp⟩
  · cases hp
  · cases hp

/-- A command waits only where the Byte Source answers fewer than 32 requests (rules R37, R55, R97). -/
theorem exec_answers_of_waiting {i : Instr} {s t : State} {p : Pending} (he : exec i s = .next t)
    (hp : t.flight = .waiting p) : ∃ j, j < 32 ∧ s.answers = some j := by
  cases i with
  | init =>
    cases he
    obtain ⟨j, hj, ha⟩ := (readBytes_onlyReads initBytes 0#32 s).answers_of_waiting (fun _ _ => ⟨_, rfl⟩) hp
    exact ⟨j, by unfold initBytes at hj; omega, ha⟩
  | decodeBit addr =>
    cases he
    obtain ⟨c, hc⟩ := whenReady_waiting hp
    obtain ⟨j, hj, ha⟩ := decodeBitReady_answers_of_waiting hc
    exact ⟨j, by omega, ha⟩
  | decodeDirectBits n =>
    cases he
    obtain ⟨c, hc⟩ := whenReady_waiting hp
    exact decodeDirectBitsReady_answers_of_waiting hc
  | initBitModels base count =>
    cases he
    rcases runInitBitModels_cases base count s with ⟨-, h⟩ | ⟨-, h⟩ <;> rw [h] at hp <;> cases hp

/-! ### The response -/

/-- A valid response that the host takes (rules R43, R52). -/
theorem State.deliver_of_responding {s : State} {r : Response} (hf : s.flight = .responding r)
    (ha : s.accepts = true) :
    State.deliver s = { s with flight := .idle, responses := s.responses ++ [r] } := by
  simp [State.deliver, hf, ha]

/-- In a fair environment every command ends with its response valid, RESULT its value, 0 on a fault (rules R26, R43,
R97). -/
theorem exec_responds (i : Instr) {s : State} (hfair : s.Fair) :
    ∃ (t : State) (r : Response), exec i s = .next t ∧ t.flight = .responding r ∧ t.responses = s.responses ∧
      t.result = r.value ∧ t.host = s.host ∧ t.accepts = true ∧ (r.status ≠ .ok → r.value = 0#32) := by
  obtain ⟨haccepts, hanswers⟩ := hfair
  obtain ⟨t, j, he, hhost, -, -, -, hacc, -, -, hends⟩ := exec_cases i s
  rcases hends with ⟨⟨hf, hresp⟩, -⟩ | ⟨f, ⟨hf, hresp⟩, -, hresult, -⟩ | ⟨⟨⟨p, hp⟩, -⟩, -⟩
  · exact ⟨t, _, he, hf, hresp, rfl, hhost, hacc.trans haccepts, fun h => absurd rfl h⟩
  · exact ⟨t, _, he, hf, hresp, hresult, hhost, hacc.trans haccepts, fun _ => rfl⟩
  · obtain ⟨j, hj, ha⟩ := exec_answers_of_waiting he hp
    exact absurd (hanswers j ha) (by omega)

/-- Settles O10: a word that decodes by `exec_responds`, an illegal one by the fault it raises; then the transfer. -/
theorem everyCommandAnsweredOnce : Obligations.EveryCommandAnsweredOnce := by
  intro s w es htakes hfair
  have hfair' : ({ s with host := es } : State).Fair := hfair
  cases hd : decode w with
  | ok i =>
    obtain ⟨t, he, hstep⟩ := step_command s w es i htakes hd
    obtain ⟨u, r, hu, hf, hresp, hresult, hhost, hacc, hzero⟩ := exec_responds i hfair'
    cases he.symm.trans hu
    refine ⟨_, r, hstep, ?_⟩
    rw [State.deliver_of_responding hf hacc]
    exact ⟨by rw [hresp], hresult, hhost, rfl, hzero⟩
  | error e =>
    refine ⟨_, ⟨.fault .illegalCommand, 0#32⟩, step_illegal s w es e htakes hd, ?_⟩
    rw [State.deliver_of_responding (s := State.raise { s with host := es } .illegalCommand) rfl hfair.1]
    exact ⟨rfl, rfl, rfl, rfl, fun _ => rfl⟩

/-! ### Faults and their numbers -/

/-- Settles O14: the branch of `State.errAfter` written as a conditional. -/
theorem raiseTakesFault : Obligations.RaiseTakesFault := by
  intro s f
  rw [← State.errAfter_eq]
  rfl

/-- The code determines the fault (rule R77). -/
theorem FaultCode.code_injective : ∀ f g : FaultCode, f.code = g.code → f = g := by
  intro f g
  cases f <;> cases g <;> decide

/-- No fault has the code of `OK` (rule R77). -/
theorem FaultCode.code_ne_zero (f : FaultCode) : f.code ≠ 0#4 := by
  cases f <;> decide

/-- The code determines the status (rules R45, R77). -/
theorem Status.code_injective : ∀ x y : Status, x.code = y.code → x = y
  | .ok, .ok, _ => rfl
  | .ok, .fault g, h => absurd h.symm g.code_ne_zero
  | .fault f, .ok, h => absurd h f.code_ne_zero
  | .fault f, .fault g, h => congrArg _ (FaultCode.code_injective f g h)

/-- Settles O7: the table of codes as it stands, and that it is injective. -/
theorem faultCodeNumbers : Obligations.FaultCodeNumbers := by
  refine ⟨by decide, Status.code_injective, fun s => ⟨fun h => ?_, fun c h => ?_, fun h => ?_⟩, fun s f h => ?_,
    fun s h => ?_⟩
  · simp [State.sessOut, h, Session.code]
  · simp [State.sessOut, h, Session.code]
  · simp [State.sessOut, h, Session.code]
  · simp [State.errOut, h, Status.code]
  · simp [State.errOut, h, Status.code]

/-! ### Reset -/

/-- `rst` is a move in every state of the channels (rules R90, R97). -/
theorem step_reset {s : State} {es : List HostEvent} (h : s.host = .reset :: es) :
    step s = .next (State.resetBlock { s with host := es }) := by
  have hmove : canMove .reset s = true := by
    unfold canMove
    split <;> rfl
  simp [step, h, hmove, hostMove]

/-- Settles O54: the next state is `State.resetBlock`, which writes the session, ERR, RESULT and the channels. -/
theorem resetKeepsMemoryAndSource : Obligations.ResetKeepsMemoryAndSource :=
  fun _ _ h => ⟨_, step_reset h, rfl, rfl, rfl, fun _ => rfl, rfl, rfl, rfl, rfl, rfl⟩

/-- Settles O53: every field it speaks of is a constant of `State.reset`. -/
theorem resetState : Obligations.ResetState := ⟨rfl, rfl, rfl, rfl, rfl, rfl, rfl, rfl⟩

end Sys2Proof.Machine
end

section
/-! PROOFS. Scope: the three outcomes of BsRead (rule R31) in Normalize (rule R54), INIT (rule R53), DECODE_BIT (rule
R57) and DECODE_DIRECT_BITS (rule R63). -/

namespace Sys2Proof.Machine

/-! ### Faults and bytes taken, written out -/

/-- `State.raise` in the form the statements use (rule R82). -/
theorem raise_eq_afterFault (s : State) (f : FaultCode) : State.raise s f = afterFault f s :=
  raiseTakesFault s f

/-- All that is left of the stream is taken. -/
theorem State.takeBytes_rest (s : State) :
    State.takeBytes s (s.stream.length - s.pos) = { s with
      pos := max s.pos s.stream.length
      answers := s.answers.map (· - (s.stream.length - s.pos)) } := by
  have hpos : s.pos + (s.stream.length - s.pos) = max s.pos s.stream.length := by omega
  simp only [State.takeBytes, hpos]

/-- All that the Byte Source delivers is taken (rule R31 (c)). -/
theorem State.takeBytes_of_answers {s : State} {j : Nat} (h : s.answers = some j) :
    State.takeBytes s j = { s with pos := s.pos + j, answers := some 0 } := by
  simp [State.takeBytes, h]

/-- A source that answers one request is not leaving the next one unanswered. -/
theorem State.Answers.ne_zero {s : State} {n : Nat} (h : s.Answers n) (hn : 0 < n) : s.answers ≠ some 0 :=
  fun h0 => absurd (h 0 h0) (by omega)

theorem State.bsRead_of_byte {s : State} {b : Byte} (ha : s.answers ≠ some 0) (h : s.stream[s.pos]? = some b) :
    State.bsRead s = .byte b (State.takeBytes s 1) := by
  simp [State.bsRead, ha, h]

theorem State.bsRead_of_eos {s : State} (ha : s.answers ≠ some 0) (h : s.stream[s.pos]? = none) :
    State.bsRead s = .eos := by
  simp [State.bsRead, ha, h]

theorem State.bsRead_of_unanswered {s : State} (ha : s.answers = some 0) : State.bsRead s = .noAnswer := by
  simp [State.bsRead, ha]

/-! ### Normalize -/

/-- At `TOP` or above Normalize does nothing (rule R54). -/
theorem runNormalize_of_ge {c : Coder} (s : State) (h : 0x01000000 ≤ c.range.toNat) :
    runNormalize c s = .done c s := by
  have htop : topByteZero c.range = false := by
    rw [← Bool.not_eq_true, topByteZero_iff]
    omega
  simp [runNormalize, htop]

/-- Below `TOP` Normalize shifts a byte in (rule R54). -/
theorem runNormalize_of_byte {c : Coder} {s : State} {x : Byte} (h : c.range.toNat < 0x01000000)
    (ha : s.answers ≠ some 0) (hx : s.stream[s.pos]? = some x) :
    runNormalize c s = .done ⟨c.range <<< 8, shiftIn c.code x⟩ (State.takeBytes s 1) := by
  rw [runNormalize, if_pos ((topByteZero_iff _).mpr h), State.bsRead_of_byte ha hx]

theorem runNormalize_of_eos {c : Coder} {s : State} (h : c.range.toNat < 0x01000000)
    (ha : s.answers ≠ some 0) (hx : s.stream[s.pos]? = none) :
    runNormalize c s = .raised .streamExhausted s := by
  rw [runNormalize, if_pos ((topByteZero_iff _).mpr h), State.bsRead_of_eos ha hx]

theorem runNormalize_of_unanswered {c : Coder} {s : State} (h : c.range.toNat < 0x01000000)
    (ha : s.answers = some 0) : runNormalize c s = .waiting s := by
  rw [runNormalize, if_pos ((topByteZero_iff _).mpr h), State.bsRead_of_unanswered ha]

/-- Settles O19: one clause for each outcome. -/
theorem normalizeIsOneConditionalStep : Obligations.NormalizeIsOneConditionalStep :=
  fun _ s => ⟨runNormalize_of_ge s, fun _ h ha hx => runNormalize_of_byte h (ha.ne_zero Nat.one_pos) hx,
    fun h ha hx => runNormalize_of_eos h (ha.ne_zero Nat.one_pos) hx, runNormalize_of_unanswered⟩

/-- A decode command whose Normalize meets the end of the stream (rules R54, R78). -/
theorem finishDecode_of_eos (left : Nat) {c : Coder} (acc : Word) {s : State} (h : c.range.toNat < 0x01000000)
    (ha : s.answers ≠ some 0) (hx : s.stream[s.pos]? = none) :
    finishDecode left c acc s = State.raise s .streamExhausted := by
  rw [finishDecode_eq, runNormalize_of_eos h ha hx]

/-- A decode command whose Normalize gets no answer (rules R31 (c), R54). -/
theorem finishDecode_of_unanswered (left : Nat) {c : Coder} (acc : Word) {s : State}
    (h : c.range.toNat < 0x01000000) (ha : s.answers = some 0) :
    finishDecode left c acc s = State.wait s (.normalize c acc left) := by
  rw [finishDecode_eq, runNormalize_of_unanswered h ha]

/-! ### INIT -/

/-- `m` bytes and then `k` more (rule R53). -/
theorem readBytes_add (m k : Nat) {c v : Word} {s t : State} (h : readBytes m c s = .done v t) :
    readBytes (m + k) c s = readBytes k v t := by
  induction m generalizing c s with
  | zero =>
    cases h
    rw [Nat.zero_add]
  | succ m ih =>
    rw [readBytes] at h
    rw [Nat.add_right_comm, readBytes]
    cases hr : State.bsRead s with
    | byte b s' =>
      rw [hr] at h
      exact ih h
    | eos => rw [hr] at h; cases h
    | noAnswer => rw [hr] at h; cases h

/-- INIT once the bytes that stand at the cursor have come, with `k` more to come (rules R35, R53). -/
theorem finishInit_of_prefix (bytes : List Byte) (k : Nat) (c : Word) {s : State}
    (h : bytes <+: s.stream.drop s.pos) (ha : s.Answers bytes.length) :
    finishInit (bytes.length + k) c s = finishInit k (bytes.foldl shiftIn c) (State.takeBytes s bytes.length) := by
  unfold finishInit
  rw [readBytes_add _ k (readBytes_eq bytes c s h ha)]

/-- The code of five bytes: the first is shifted out, the others are big-endian (rules R35, R53). -/
theorem shiftIn_five (b0 b1 b2 b3 b4 : Byte) :
    [b0, b1, b2, b3, b4].foldl shiftIn 0#32 =
      (b1.setWidth 32 <<< 24) ||| (b2.setWidth 32 <<< 16) ||| (b3.setWidth 32 <<< 8) ||| b4.setWidth 32 := by
  have hout : (b0.setWidth 32 <<< 32 : Word) = 0#32 := BitVec.shiftLeft_eq_zero (le_refl 32)
  simp only [List.foldl_cons, List.foldl_nil, shiftIn, BitVec.shiftLeft_or_distrib, ← BitVec.shiftLeft_add,
    BitVec.zero_shiftLeft, BitVec.zero_or, hout]

/-- Settles O17: the five bytes stand at the cursor, and none is to come after them. -/
theorem initStartsSession : Obligations.InitStartsSession := by
  intro s b0 b1 b2 b3 b4 rest hbytes ha
  have hprefix : [b0, b1, b2, b3, b4] <+: s.stream.drop s.pos := ⟨rest, hbytes.symm⟩
  have hrun : runInit s = State.startSession (State.takeBytes s 5)
      ⟨rangeInit, [b0, b1, b2, b3, b4].foldl shiftIn 0#32⟩ := finishInit_of_prefix _ 0 0#32 hprefix ha
  rw [shiftIn_five] at hrun
  exact congrArg _ hrun

/-- INIT with a byte to come, at the end of the stream (rules R53, R78). -/
theorem finishInit_of_eos (k : Nat) (c : Word) {s : State} (ha : s.answers ≠ some 0)
    (h : s.stream[s.pos]? = none) : finishInit (k + 1) c s = State.raise s .streamExhausted := by
  rw [finishInit_succ, State.bsRead_of_eos ha h]

/-- INIT with a byte to come, and no answer (rules R31 (c), R53). -/
theorem finishInit_of_unanswered (k : Nat) (c : Word) {s : State} (ha : s.answers = some 0) :
    finishInit (k + 1) c s = State.wait s (.init (k + 1) c) := by
  rw [finishInit_succ, State.bsRead_of_unanswered ha]

/-- INIT with fewer than five bytes before the end of the stream, and a source that says so (rules R53, R78). -/
theorem runInit_of_short {s : State} (hlen : s.stream.length < s.pos + 5)
    (ha : s.Answers (s.stream.length - s.pos + 1)) :
    runInit s = State.raise (State.takeBytes s (s.stream.length - s.pos)) .streamExhausted := by
  have hlength : (s.stream.drop s.pos).length = s.stream.length - s.pos := List.length_drop
  obtain ⟨k, hk⟩ : ∃ k, initBytes = (s.stream.drop s.pos).length + (k + 1) :=
    Nat.exists_eq_add_of_lt (by unfold initBytes; omega)
  have hread : s.Answers (s.stream.drop s.pos).length := fun m hm => by
    have := ha m hm
    omega
  have hend : s.stream[s.pos + (s.stream.length - s.pos)]? = none := List.getElem?_eq_none (by omega)
  have hanswers : (State.takeBytes s (s.stream.length - s.pos)).answers ≠ some 0 := by
    rw [State.takeBytes_answers, Ne, Option.map_eq_some_iff]
    rintro ⟨m, hm, h0⟩
    have := ha m hm
    omega
  unfold runInit
  rw [hk, finishInit_of_prefix _ _ _ List.prefix_rfl hread, hlength, finishInit_of_eos _ _ hanswers hend]

/-- INIT with fewer than five bytes before an unanswered request (rules R31 (c), R53). -/
theorem runInit_of_unanswered {s : State} {j : Nat} (hj : j < 5) (ha : s.answers = some j)
    (hlen : j ≤ s.stream.length - s.pos) :
    ∃ code, runInit s = State.wait (State.takeBytes s j) (.init (5 - j) code) := by
  have hlength : ((s.stream.drop s.pos).take j).length = j := by
    rw [List.length_take, List.length_drop]
    omega
  have hread : s.Answers ((s.stream.drop s.pos).take j).length := fun m hm => by
    cases ha.symm.trans hm
    exact hlength.le
  have hanswers : (State.takeBytes s j).answers = some 0 := by rw [State.takeBytes_of_answers ha]
  obtain ⟨k, hk⟩ : ∃ k, 5 = j + (k + 1) := Nat.exists_eq_add_of_lt hj
  have hleft : 5 - j = k + 1 := by omega
  have hrun := finishInit_of_prefix _ (k + 1) 0#32 (List.take_prefix j _) hread
  rw [hlength, ← hk, finishInit_of_unanswered _ _ hanswers, ← hleft] at hrun
  exact ⟨_, hrun⟩

/-- Settles O18: INIT takes the bytes that are there, or that come, and then its next request is answered with
end-of-stream, or not at all. -/
theorem initMeetsEndOfStream : Obligations.InitMeetsEndOfStream := by
  refine ⟨fun s hlen ha => ?_, fun s j hj ha hlen => ?_⟩
  · rw [← State.takeBytes_rest, ← raise_eq_afterFault]
    exact congrArg _ (runInit_of_short hlen ha)
  · obtain ⟨code, hrun⟩ := runInit_of_unanswered hj ha hlen
    rw [State.takeBytes_of_answers ha] at hrun
    exact ⟨code, congrArg _ hrun⟩

/-! ### DECODE_BIT -/

/-- The table of rule R61 is the split. -/
theorem adaptiveSplit_of_table {R C B bit R' C' : Word} {p p' : Entry} (hB : B = (R >>> 11) * p.setWidth 32)
    (h : (C < B ∧ bit = 0#32 ∧ R' = B ∧ C' = C ∧ p' = p + ((2048#16 - p) >>> 5)) ∨
      (B ≤ C ∧ bit = 1#32 ∧ R' = R - B ∧ C' = C - B ∧ p' = p - (p >>> 5))) :
    adaptiveSplit ⟨R, C⟩ p = ⟨bit, ⟨R', C'⟩, p'⟩ := by
  subst hB
  rcases h with ⟨hlt, rfl, rfl, rfl, rfl⟩ | ⟨hge, rfl, rfl, rfl, rfl⟩
  · exact if_pos (decide_eq_true hlt)
  · exact if_neg fun hlt => absurd (of_decide_eq_true hlt) (BitVec.not_lt.mpr hge)

/-- Settles O22: past its checks DECODE_BIT is the write of the entry and then one Normalize. -/
theorem adaptiveBitMeetsEndOfStream : Obligations.AdaptiveBitMeetsEndOfStream := by
  intro s addr R C B bit R' C' p p' hs haddr hp hlegal hB htable hfires
  subst hp
  have hexec : exec (.decodeBit addr) s = .next (finishDecode 0 ⟨R', C'⟩ bit (s.writeEntry addr p')) := by
    rw [execDecodeBit_ready s addr _ hs, decodeBitReady_of_legal _ haddr hlegal, adaptiveSplit_of_table hB htable]
  refine ⟨fun hx ha => ?_, fun ha => ?_⟩
  · rw [hexec, finishDecode_of_eos (s := s.writeEntry addr p') 0 bit hfires (ha.ne_zero Nat.one_pos) hx,
      raise_eq_afterFault]
    rfl
  · rw [hexec, finishDecode_of_unanswered (s := s.writeEntry addr p') 0 bit hfires ha]
    rfl

/-! ### DECODE_DIRECT_BITS -/

/-- Settles O30: one bit is the halving and then one Normalize, with its four outcomes. -/
theorem directBitFormula : Obligations.DirectBitFormula := by
  intro s R C r t C' hs hr ht hC'
  subst hr ht hC'
  have hexec : exec (.decodeDirectBits 1) s = .next (finishDecode 0 (directHalve ⟨R, C⟩)
      (1#32 - directSign ⟨R, C⟩) s) := by
    rw [execDecodeDirectBits_ready s 1 _ hs, decodeDirectBitsReady_one, BitVec.zero_shiftLeft, BitVec.zero_or]
  refine ⟨fun hge => ?_, fun x hlt ha hx => ?_, fun hlt ha hx => ?_, fun hlt ha => ?_⟩
  · rw [hexec, finishDecode_zero_of_ge _ s hge]
    rfl
  · rw [hexec, finishDecode_zero_of_byte _ hlt hx ha]
    rfl
  · rw [hexec, finishDecode_of_eos 0 _ hlt (ha.ne_zero Nat.one_pos) hx, raise_eq_afterFault]
  · rw [hexec, finishDecode_of_unanswered 0 _ hlt ha]
    rfl

/-- Settles O33: the loop only reads; a byte, and an answer, for every iteration leave it no other end than its own. -/
theorem directBitsOutcome : Obligations.DirectBitsOutcome := by
  intro s n c hs hn
  rw [execDecodeDirectBits_ready s n c hs]
  rcases decodeDirectBitsReady_cases n s c with
    ⟨hcount, -⟩ | ⟨-, r, j, hj, -, h⟩ | ⟨-, hlen, -, h⟩ | ⟨-, p, j, hj, ha, -, h⟩
  · omega
  · have hdone : ∃ (c' : Coder) (v : Word) (j : Nat), j ≤ n ∧
        Host.Outcome.next (decodeDirectBitsReady n s c) = (.next (afterOk v
          { s with session := .ready c', pos := s.pos + j, answers := s.answers.map (· - j) }) :
          Host.Outcome State Fault Refusal) := ⟨r.1, r.2, j, hj, congrArg _ h⟩
    exact ⟨fun _ _ => hdone, .inl hdone⟩
  · refine ⟨fun hbytes _ => by omega, .inr (.inl ⟨hlen, ?_⟩)⟩
    rw [h, raise_eq_afterFault, State.takeBytes_rest]
  · refine ⟨fun _ hall => absurd (hall j ha) (by omega), .inr (.inr ⟨p, j, hj, ha, ?_⟩)⟩
    rw [h, State.takeBytes_of_answers ha]
    rfl

end Sys2Proof.Machine
end

section
/-! PROOFS. Scope: what INIT and the decode commands leave unchanged (rule R37), what DECODE_BIT leaves in its entry
(rules R40, R57). -/

namespace Sys2Proof.Machine

/-! ### What every command leaves unchanged -/

/-- Everything outside the session, the memory and the response, as every command leaves it (rules R31, R37, R97). -/
theorem exec_frame {i : Instr} {s t : State} (he : exec i s = .next t) :
    s.pos ≤ t.pos ∧ t.answers = s.answers.map (· - (t.pos - s.pos)) ∧ t.responses = s.responses ∧
      t.stream = s.stream ∧ t.host = s.host ∧ t.hostReads = s.hostReads ∧ t.probDepth = s.probDepth ∧
      t.accepts = s.accepts := by
  obtain ⟨u, j, hu, hhost, hstream, hreads, hdepth, haccepts, hpos, hanswers, hends⟩ := exec_cases i s
  cases he.symm.trans hu
  have hj : t.pos - s.pos = j := by omega
  have hresponses : t.responses = s.responses := by
    rcases hends with ⟨⟨-, h⟩, -⟩ | ⟨f, ⟨-, h⟩, -⟩ | ⟨⟨-, h⟩, -⟩ <;> exact h
  exact ⟨by omega, by rw [hj]; exact hanswers, hresponses, hstream, hhost, hreads, hdepth, haccepts⟩

/-- A command other than INIT that succeeds keeps ERR (rule R25). -/
theorem exec_err_of_answeredOk {i : Instr} {s t : State} (he : exec i s = .next t) (hi : i ≠ .init)
    (hok : AnsweredOk s t) : t.err = s.err := by
  obtain ⟨u, j, hu, -, -, -, -, -, -, -, hends⟩ := exec_cases i s
  cases he.symm.trans hu
  rcases hends with ⟨-, -, hkeep, -⟩ | ⟨f, ⟨hf, -⟩, -⟩ | ⟨⟨⟨p, hf⟩, -⟩, -⟩
  · exact (hkeep hi).1
  · cases hf.symm.trans hok.1
  · cases hf.symm.trans hok.1

/-! ### INIT and DECODE_DIRECT_BITS -/

theorem runInit_pm (s : State) : (runInit s).pm = s.pm := (resume_cases (.init initBytes 0#32) s).1

theorem runDecodeDirectBits_pm (n : Nat) (s : State) : (runDecodeDirectBits n s).pm = s.pm := by
  unfold runDecodeDirectBits
  rcases State.whenReady_cases s (decodeDirectBitsReady n s) with ⟨c, -, h⟩ | ⟨-, h⟩ | ⟨-, h⟩ <;> rw [h]
  · rcases decodeDirectBitsReady_cases n s c with
      ⟨-, h⟩ | ⟨-, r, j, -, -, h⟩ | ⟨-, -, -, h⟩ | ⟨-, p, j, -, -, -, h⟩ <;> rw [h] <;> rfl
  · rfl
  · rfl

/-- Settles O39: neither command writes the memory; the rest is the frame of every command. -/
theorem byteReadersFrame : Obligations.ByteReadersFrame := by
  intro s t i hi he
  have hpm : t.pm = s.pm := by
    rcases hi with rfl | ⟨n, rfl⟩ <;> cases he
    · exact runInit_pm s
    · exact runDecodeDirectBits_pm n s
  obtain ⟨hpos, hanswers, hresponses, hstream, hhost, hreads, hdepth, haccepts⟩ := exec_frame he
  exact ⟨State.readEntry_of_pm s t hpm, hpos, hanswers, hresponses, hstream, hhost, hreads, hdepth, haccepts,
    exec_err_of_answeredOk he⟩

/-! ### DECODE_BIT -/

/-- Everything DECODE_BIT can lead to: a fault with nothing else changed, or the write of the entry and then one
Normalize (rules R43, R56, R57). -/
theorem execDecodeBit_cases {s t : State} {addr : Nat} (he : exec (.decodeBit addr) s = .next t) :
    (∃ f, t = State.raise s f) ∨
    (∃ c, s.session = .ready c ∧ addr < s.probDepth ∧ (s.readEntry addr).toNat < 2048 ∧
      t = finishDecode 0 (adaptiveSplit c (s.readEntry addr)).coder (adaptiveSplit c (s.readEntry addr)).bit
        (s.writeEntry addr (adaptiveSplit c (s.readEntry addr)).entry)) := by
  cases he
  unfold runDecodeBit
  rcases State.whenReady_cases s (decodeBitReady addr s) with ⟨c, hc, h⟩ | ⟨-, h⟩ | ⟨-, h⟩ <;> rw [h]
  · rcases decodeBitReady_cases addr s c with ⟨-, h⟩ | ⟨-, -, h⟩ | ⟨haddr, hentry, -⟩
    · exact .inl ⟨_, h⟩
    · exact .inl ⟨_, h⟩
    · exact .inr ⟨c, hc, haddr, hentry, decodeBitReady_of_legal c haddr hentry⟩
  · exact .inl ⟨_, rfl⟩
  · exact .inl ⟨_, rfl⟩

/-- A decode command from its Normalize on takes at most one byte for it and one for each direct bit after it (rule
R55). -/
theorem finishDecode_pos_le (left : Nat) (c : Coder) (acc : Word) (s : State) :
    (finishDecode left c acc s).pos ≤ s.pos + (left + 1) := by
  obtain ⟨-, -, hle, -⟩ := resume_cases (.normalize c acc left) s
  exact hle

/-- Only a successful INIT takes back the mark that the host has placed the Byte Source (log entry 10). -/
theorem finishDecode_sourcePlaced (left : Nat) (c : Coder) (acc : Word) (s : State) :
    (finishDecode left c acc s).sourcePlaced = s.sourcePlaced := by
  have hreads := finishDecode_onlyReads left c acc s
  unfold finishDecode
  generalize ((runNormalize c s).hold _).andThen _ = r at hreads
  cases r with
  | done v u => obtain ⟨j, -, rfl⟩ := hreads; rfl
  | raised f u => obtain ⟨-, -, rfl⟩ := hreads; rfl
  | waiting u => obtain ⟨p, j, -, -, rfl⟩ := hreads; rfl

/-- Settles O24: beside the frame of every command, the write goes to the operand's entry alone and one Normalize takes
at most one byte. -/
theorem decodeBitFrame : Obligations.DecodeBitFrame := by
  intro s t addr he
  obtain ⟨hpos, hanswers, hresponses, hstream, hhost, hreads, hdepth, haccepts⟩ := exec_frame he
  have hown : (∀ a, a ≠ addr → t.readEntry a = s.readEntry a) ∧ t.pos ≤ s.pos + 1 ∧
      t.sourcePlaced = s.sourcePlaced := by
    rcases execDecodeBit_cases he with ⟨f, rfl⟩ | ⟨c, -, -, -, rfl⟩
    · exact ⟨fun _ _ => rfl, Nat.le_succ _, rfl⟩
    · refine ⟨fun a ha => ?_, finishDecode_pos_le 0 _ _ (s.writeEntry addr _), finishDecode_sourcePlaced ..⟩
      rw [State.readEntry_of_pm _ _ (finishDecode_pm ..), State.readEntry_writeEntry, if_neg ha]
  obtain ⟨hentries, hbyte, hplaced⟩ := hown
  exact ⟨hentries, hpos, hbyte, hanswers, hresponses, hstream, hhost, hreads, hdepth, haccepts, hplaced,
    exec_err_of_answeredOk he Instr.noConfusion⟩

/-- A Normalize with no direct bit after it that succeeds answers with the bits it was given (rule R57). -/
theorem finishDecode_zero_result {c : Coder} {acc : Word} {s : State} {v : Word}
    (h : (finishDecode 0 c acc s).flight = .responding ⟨.ok, v⟩) : (finishDecode 0 c acc s).result = acc := by
  rw [finishDecode_eq] at h ⊢
  cases hr : runNormalize c s with
  | done c' u => rfl
  | raised f u => rw [hr] at h; cases h
  | waiting u => rw [hr] at h; cases h

/-- The decoded bit and the update of the entry go together (rules R57, R61). -/
theorem adaptiveSplit_bit_entry (c : Coder) (p : Entry) :
    ((adaptiveSplit c p).bit = 0#32 ∧ (adaptiveSplit c p).entry = probUp p) ∨
      ((adaptiveSplit c p).bit = 1#32 ∧ (adaptiveSplit c p).entry = probDown p) := by
  unfold adaptiveSplit
  split
  · exact .inl ⟨rfl, rfl⟩
  · exact .inr ⟨rfl, rfl⟩

/-- Settles O25: RESULT is the bit of the split and the entry its entry. -/
theorem decodeBitWritesWhatTheNextReads : Obligations.DecodeBitWritesWhatTheNextReads := by
  intro s t addr he hok
  rcases execDecodeBit_cases he with ⟨f, rfl⟩ | ⟨c, -, -, -, rfl⟩
  · cases hok.1
  · rw [finishDecode_zero_result hok.1, State.readEntry_of_pm _ _ (finishDecode_pm ..), State.readEntry_writeEntry,
      if_pos rfl]
    exact adaptiveSplit_bit_entry c _

end Sys2Proof.Machine
end

section
/-! PROOFS. Scope: a command that waits for the Byte Source and is taken up again is the command that had not to wait
(rules R31 (c), R97). A command from a request on is a function of the state; the property of such a function that
says so is kept by putting one more request in front of it. -/

namespace Sys2Proof.Machine

/-- A command from a request to the Byte Source on: `go` with the byte; the fault at the end of the stream; or in flight
as `p` (rule R31). -/
def readThen (p : Pending) (go : Byte → State → State) (s : State) : State :=
  match State.bsRead s with
  | .byte b s' => go b s'
  | .eos => State.raise s .streamExhausted
  | .noAnswer => State.wait s p

/-- The state with a Byte Source that delivers as many more bytes, or answers every request. -/
def State.withAnswers (s : State) (a : Option Nat) : State := { s with answers := a }

/-- A command that is taken up again where it waited, with `m` more bytes to come, ends as it would have with those and
the ones it had taken; what the channels held before plays no part, and the cursor does not go back. -/
structure Resumable (F : State → State) : Prop where
  flight_irrelevant : ∀ (s : State) (f : Flight), F { s with flight := f } = F s
  pos_le : ∀ s : State, s.pos ≤ (F s).pos
  resumes : ∀ (s : State) (p : Pending) (m : Option Nat), (F s).flight = .waiting p →
    F (s.withAnswers (m.map (· + ((F s).pos - s.pos)))) = resume p ((F s).withAnswers m)

theorem readThen_of_byte {p : Pending} {go : Byte → State → State} {s : State} {b : Byte}
    (ha : s.answers ≠ some 0) (hb : s.stream[s.pos]? = some b) :
    readThen p go s = go b (State.takeBytes s 1) := by
  rw [readThen, State.bsRead_of_byte ha hb]

theorem readThen_of_eos {p : Pending} {go : Byte → State → State} {s : State}
    (ha : s.answers ≠ some 0) (hb : s.stream[s.pos]? = none) :
    readThen p go s = State.raise s .streamExhausted := by
  rw [readThen, State.bsRead_of_eos ha hb]

theorem readThen_of_unanswered {p : Pending} {go : Byte → State → State} {s : State} (ha : s.answers = some 0) :
    readThen p go s = State.wait s p := by
  rw [readThen, State.bsRead_of_unanswered ha]

/-- An end that answers has nothing to take up again. -/
theorem Resumable.of_responding {F : State → State} (hflight : ∀ (s : State) (f : Flight), F { s with flight := f } = F s)
    (hpos : ∀ s : State, s.pos ≤ (F s).pos) (hanswer : ∀ s : State, ∃ r, (F s).flight = .responding r) :
    Resumable F where
  flight_irrelevant := hflight
  pos_le := hpos
  resumes s p _ hp := by
    obtain ⟨r, hr⟩ := hanswer s
    cases hr.symm.trans hp

theorem readThen_flight {p : Pending} {go : Byte → State → State} (hgo : ∀ b, Resumable (go b)) (s : State)
    (f : Flight) : readThen p go { s with flight := f } = readThen p go s := by
  rcases State.bsRead_cases s with ⟨b, ha, hb, -⟩ | ⟨ha, hb, -⟩ | ⟨ha, -⟩
  · rw [readThen_of_byte ha hb, readThen_of_byte (s := { s with flight := f }) ha hb]
    exact (hgo b).flight_irrelevant (State.takeBytes s 1) f
  · rw [readThen_of_eos ha hb, readThen_of_eos (s := { s with flight := f }) ha hb]
    rfl
  · rw [readThen_of_unanswered ha, readThen_of_unanswered (s := { s with flight := f }) ha]
    rfl

theorem readThen_pos_le {p : Pending} {go : Byte → State → State} (hgo : ∀ b, Resumable (go b)) (s : State) :
    s.pos ≤ (readThen p go s).pos := by
  rcases State.bsRead_cases s with ⟨b, ha, hb, -⟩ | ⟨ha, hb, -⟩ | ⟨ha, -⟩
  · rw [readThen_of_byte ha hb]
    exact Nat.le_of_succ_le ((hgo b).pos_le (State.takeBytes s 1))
  · rw [readThen_of_eos ha hb]
    exact le_refl _
  · rw [readThen_of_unanswered ha]
    exact le_refl _

/-- A source with a further byte for each of `k + 1` requests, one of which has been answered. -/
theorem takeBytes_one_of_more (s : State) (m : Option Nat) (k : Nat) :
    State.takeBytes (s.withAnswers (m.map (· + (k + 1)))) 1 = (State.takeBytes s 1).withAnswers (m.map (· + k)) := by
  cases m <;> simp [State.takeBytes, State.withAnswers]

/-- One more request in front: it was answered and the rest takes it up, or the command waits at it. -/
theorem Resumable.readThen {p : Pending} {go : Byte → State → State} (hgo : ∀ b, Resumable (go b))
    (hp : resume p = readThen p go) : Resumable (readThen p go) where
  flight_irrelevant := readThen_flight hgo
  pos_le := readThen_pos_le hgo
  resumes s q m hq := by
    rcases State.bsRead_cases s with ⟨b, ha, hb, -⟩ | ⟨ha, hb, -⟩ | ⟨ha, -⟩
    · rw [readThen_of_byte ha hb] at hq ⊢
      have hpos : s.pos + 1 ≤ (go b (State.takeBytes s 1)).pos := (hgo b).pos_le (State.takeBytes s 1)
      obtain ⟨k, hk⟩ : ∃ k, (go b (State.takeBytes s 1)).pos - s.pos = k + 1 := Nat.exists_eq_succ_of_ne_zero (by omega)
      have hrest : (go b (State.takeBytes s 1)).pos - (State.takeBytes s 1).pos = k := by
        rw [State.takeBytes_pos]
        omega
      have hmore : m.map (· + (k + 1)) ≠ some 0 := by cases m <;> simp
      have hread := readThen_of_byte (p := p) (go := go) (s := s.withAnswers (m.map (· + (k + 1)))) hmore hb
      rw [hk, hread, takeBytes_one_of_more, ← hrest]
      exact (hgo b).resumes (State.takeBytes s 1) q m hq
    · rw [readThen_of_eos ha hb] at hq
      cases hq
    · rw [readThen_of_unanswered ha] at hq ⊢
      cases hq
      have hnone : m.map (· + 0) = m := Option.map_id'
      rw [hp, State.wait_pos, Nat.sub_self, hnone]
      exact (readThen_flight hgo (s.withAnswers m) (.waiting p)).symm

/-! ### The commands that read bytes -/

theorem finishInit_resumable (k : Nat) (c : Word) : Resumable (finishInit k c) := by
  induction k generalizing c with
  | zero => exact .of_responding (fun _ _ => rfl) (fun _ => le_refl _) fun _ => ⟨_, rfl⟩
  | succ k ih =>
    have hread : finishInit (k + 1) c = readThen (.init (k + 1) c) fun b => finishInit k (shiftIn c b) :=
      funext (finishInit_succ k c)
    rw [hread]
    exact Resumable.readThen (fun b => ih (shiftIn c b)) hread

/-- `n` more direct bits and the response, as in DECODE_DIRECT_BITS (rule R63). -/
def finishBits (n : Nat) (c : Coder) (acc : Word) (s : State) : State :=
  (directBits n c acc s).close fun r t => State.complete t r.1 r.2

theorem finishBits_succ (k : Nat) (c : Coder) (acc : Word) :
    finishBits (k + 1) c acc = finishDecode k (directHalve c) ((acc <<< 1) ||| (1#32 - directSign c)) :=
  funext (directBits_succ_close k c acc)

/-- A Normalize that fires is one request to the Byte Source (rule R54). -/
theorem finishDecode_of_lt (left : Nat) {c : Coder} (acc : Word) (h : c.range.toNat < 0x01000000) :
    finishDecode left c acc =
      readThen (.normalize c acc left) fun b => finishBits left ⟨c.range <<< 8, shiftIn c.code b⟩ acc := by
  funext s
  rcases State.bsRead_cases s with ⟨b, ha, hb, -⟩ | ⟨ha, hb, -⟩ | ⟨ha, -⟩
  · rw [finishDecode_eq, runNormalize_of_byte h ha hb, readThen_of_byte ha hb]
    rfl
  · rw [finishDecode_of_eos left acc h ha hb, readThen_of_eos ha hb]
  · rw [finishDecode_of_unanswered left acc h ha, readThen_of_unanswered ha]

theorem finishDecode_of_ge (left : Nat) {c : Coder} (acc : Word) (h : 0x01000000 ≤ c.range.toNat) :
    finishDecode left c acc = finishBits left c acc := by
  funext s
  rw [finishDecode_eq, runNormalize_of_ge s h]
  rfl

/-- A decode command from its Normalize on, where the bits after it can be taken up again. -/
theorem finishDecode_resumable_of_finishBits {left : Nat} {acc : Word} (hbits : ∀ c, Resumable (finishBits left c acc))
    (c : Coder) : Resumable (finishDecode left c acc) := by
  by_cases h : c.range.toNat < 0x01000000
  · rw [finishDecode_of_lt left acc h]
    exact Resumable.readThen (fun b => hbits _) (finishDecode_of_lt left acc h)
  · rw [finishDecode_of_ge left acc (by omega)]
    exact hbits c

theorem finishBits_resumable (n : Nat) (c : Coder) (acc : Word) : Resumable (finishBits n c acc) := by
  induction n generalizing c acc with
  | zero => exact .of_responding (fun _ _ => rfl) (fun _ => le_refl _) fun _ => ⟨_, rfl⟩
  | succ k ih =>
    rw [finishBits_succ]
    exact finishDecode_resumable_of_finishBits (fun c' => ih c' _) _

theorem finishDecode_resumable (left : Nat) (c : Coder) (acc : Word) : Resumable (finishDecode left c acc) :=
  finishDecode_resumable_of_finishBits (fun c' => finishBits_resumable left c' acc) c

/-! ### DECODE_BIT and DECODE_DIRECT_BITS as a whole -/

/-- DECODE_BIT that waits has passed its checks and written its entry (rules R43, R56, R57). -/
theorem execDecodeBit_resumed {s t : State} {addr : Nat} {p : Pending} (m : Option Nat)
    (he : exec (.decodeBit addr) s = .next t) (hp : t.flight = .waiting p) :
    exec (.decodeBit addr) (s.withAnswers (m.map (· + (t.pos - s.pos)))) =
      .next (resume p (t.withAnswers m)) := by
  rcases execDecodeBit_cases he with ⟨f, rfl⟩ | ⟨c, hc, haddr, hentry, rfl⟩
  · cases hp
  · have hrun (a : Option Nat) : exec (.decodeBit addr) (s.withAnswers a) =
        .next (finishDecode 0 (adaptiveSplit c (s.readEntry addr)).coder (adaptiveSplit c (s.readEntry addr)).bit
          ((s.writeEntry addr (adaptiveSplit c (s.readEntry addr)).entry).withAnswers a)) :=
      (execDecodeBit_ready (s.withAnswers a) addr c hc).trans
        (congrArg _ (decodeBitReady_of_legal (s := s.withAnswers a) c haddr hentry))
    exact (hrun _).trans (congrArg _ ((finishDecode_resumable 0 _ _).resumes _ p m hp))

/-- DECODE_DIRECT_BITS that waits has a running session and a legal count (rules R43, R62). -/
theorem execDecodeDirectBits_resumed {s t : State} {n : Nat} {p : Pending} (m : Option Nat)
    (he : exec (.decodeDirectBits n) s = .next t) (hp : t.flight = .waiting p) :
    exec (.decodeDirectBits n) (s.withAnswers (m.map (· + (t.pos - s.pos)))) =
      .next (resume p (t.withAnswers m)) := by
  cases he
  unfold runDecodeDirectBits at hp ⊢
  rcases State.whenReady_cases s (decodeDirectBitsReady n s) with ⟨c, hc, h⟩ | ⟨-, h⟩ | ⟨-, h⟩ <;> rw [h] at hp ⊢
  · by_cases hn : maxCount < n
    · rw [decodeDirectBitsReady, if_pos hn] at hp
      cases hp
    · have hbits (u : State) : decodeDirectBitsReady n u c = finishBits n c 0#32 u := if_neg hn
      rw [hbits] at hp ⊢
      have hrun (a : Option Nat) : exec (.decodeDirectBits n) (s.withAnswers a) =
          .next (finishBits n c 0#32 (s.withAnswers a)) :=
        (execDecodeDirectBits_ready (s.withAnswers a) n c hc).trans (congrArg _ (hbits _))
      exact (hrun _).trans (congrArg _ ((finishBits_resumable n c 0#32).resumes s p m hp))
  · cases hp
  · cases hp

/-- Settles O12: every command that reads bytes is resumable from its first request on, and INIT_BIT_MODELS never
waits. -/
theorem resumedCommandIsTheCommand : Obligations.ResumedCommandIsTheCommand := by
  intro s t i p m he hp
  cases i with
  | init =>
    cases he
    exact congrArg _ ((finishInit_resumable initBytes 0#32).resumes s p m hp)
  | decodeBit addr => exact execDecodeBit_resumed m he hp
  | decodeDirectBits n => exact execDecodeDirectBits_resumed m he hp
  | initBitModels base count =>
    cases he
    rcases runInitBitModels_cases base count s with ⟨-, h⟩ | ⟨-, h⟩ <;> rw [h] at hp <;> cases hp

end Sys2Proof.Machine
end

section
/-! PROOFS. Scope: the channels while a command or a response waits (rule R97), the host's own port of the probability
memory (rules R33, R34, R38, R39). -/

namespace Sys2Proof.Machine

/-! ### Which moves are made -/

/-- A move that can be made now is made. -/
theorem step_of_canMove {s : State} {e : HostEvent} {es : List HostEvent} (h : s.host = e :: es)
    (hmove : canMove e s = true) : step s = hostMove e { s with host := es } := by
  simp [step, h, hmove]

/-- A move that cannot be made now waits (rules R38, R52, R97). -/
theorem step_of_not_canMove {s : State} {e : HostEvent} {es : List HostEvent} (h : s.host = e :: es)
    (hmove : canMove e s = false) : step s = .next s := by
  simp [step, h, hmove]

/-- The Byte Source may answer in every state of the channels (rule R97). -/
theorem canMove_sourceReady (n : Option Nat) (s : State) : canMove (.sourceReady n) s = true := by
  unfold canMove
  split <;> rfl

/-- The host may raise or lower `rsp_ready` in every state of the channels (rules R52, R97). -/
theorem canMove_hostReady (b : Bool) (s : State) : canMove (.hostReady b) s = true := by
  unfold canMove
  split <;> rfl

/-- With the channels busy no command comes, and the host touches neither memory nor source (rules R38, R43, R95). -/
theorem canMove_busy {s : State} {e : HostEvent} (hbusy : s.flight ≠ .idle)
    (he : (∃ w, e = .command w) ∨ (∃ a v, e = .writeEntry a v) ∨ (∃ a, e = .readEntry a) ∨
      (∃ p, e = .positionSource p) ∨ (∃ w k, e = .resetDuring w k)) : canMove e s = false := by
  unfold canMove
  split
  next hidle => exact absurd hidle hbusy
  next => rcases he with ⟨w, rfl⟩ | ⟨a, v, rfl⟩ | ⟨a, rfl⟩ | ⟨p, rfl⟩ | ⟨w, k, rfl⟩ <;> rfl

theorem step_sourceReady {s : State} {n : Option Nat} {es : List HostEvent} (h : s.host = .sourceReady n :: es) :
    step s = .next (State.deliver (sourceReady n { s with host := es })) :=
  step_of_canMove h (canMove_sourceReady n s)

theorem step_hostReady {s : State} {b : Bool} {es : List HostEvent} (h : s.host = .hostReady b :: es) :
    step s = .next (State.deliver { s with host := es, accepts := b }) :=
  step_of_canMove h (canMove_hostReady b s)

/-! ### The transfer of a response -/

/-- A valid response that the host does not take stays (rules R52, R97). -/
theorem State.deliver_of_not_accepts {s : State} (h : s.accepts = false) : State.deliver s = s := by
  rcases State.deliver_cases s with hd | ⟨r, -, ha, -⟩
  · exact hd
  · cases h.symm.trans ha

/-- A command that waits has no response to transfer (rule R31 (c)). -/
theorem State.deliver_of_waiting {s : State} {p : Pending} (h : s.flight = .waiting p) : State.deliver s = s := by
  rcases State.deliver_cases s with hd | ⟨r, hr, -, -⟩
  · exact hd
  · cases h.symm.trans hr

/-- How a command word stands after its step, `s` before and `t` after (rule R97): its response transferred, or valid
and not taken, or the command in flight at a request that the Byte Source leaves unanswered. -/
def CommandStands (s t : State) : Prop :=
  (∃ r, t.flight = .idle ∧ s.accepts = true ∧ t.responses = s.responses ++ [r]) ∨
    (∃ r, t.flight = .responding r ∧ s.accepts = false ∧ t.responses = s.responses) ∨
    (∃ p, t.flight = .waiting p ∧ t.answers = some 0 ∧ t.responses = s.responses ∧
      s.answers = some (t.pos - s.pos))

/-- A valid response is transferred or not, as the host takes it. -/
theorem deliver_stands_of_responding {s t : State} {r : Response} (hf : t.flight = .responding r)
    (hresponses : t.responses = s.responses) (haccepts : t.accepts = s.accepts) :
    CommandStands s (State.deliver t) := by
  cases ha : s.accepts with
  | true =>
    rw [State.deliver_of_responding hf (haccepts.trans ha)]
    exact .inl ⟨r, rfl, ha, by rw [hresponses]⟩
  | false =>
    rw [State.deliver_of_not_accepts (haccepts.trans ha)]
    exact .inr (.inl ⟨r, hf, ha, hresponses⟩)

/-- Every command stands in one of the three ways after the transfer. -/
theorem deliver_stands_of_exec {i : Instr} {s t : State} (he : exec i s = .next t) :
    CommandStands s (State.deliver t) := by
  obtain ⟨u, j, hu, -, -, -, -, haccepts, hpos, hanswers, hends⟩ := exec_cases i s
  cases he.symm.trans hu
  rcases hends with ⟨⟨hf, hresponses⟩, -⟩ | ⟨f, ⟨hf, hresponses⟩, -⟩ | ⟨⟨⟨p, hf⟩, hresponses⟩, hj, -⟩
  · exact deliver_stands_of_responding hf hresponses haccepts
  · exact deliver_stands_of_responding hf hresponses haccepts
  · rw [State.deliver_of_waiting hf]
    refine .inr (.inr ⟨p, hf, ?_, hresponses, ?_⟩)
    · rw [hanswers, hj, Option.map_some, Nat.sub_self]
    · rw [hpos, Nat.add_sub_cancel_left, hj]

/-- A command word, legal or not, is taken and stands in one of the three ways (rules R43, R48, R97). -/
theorem step_takes_stands {s : State} {w : CmdWord} {es : List HostEvent} (htakes : s.Takes w es) :
    ∃ t, step s = .next t ∧ t.host = es ∧ CommandStands s t := by
  cases hd : decode w with
  | ok i =>
    obtain ⟨t, he, hstep⟩ := step_command s w es i htakes hd
    obtain ⟨-, -, -, -, hhost, -⟩ := exec_frame he
    exact ⟨_, hstep, (State.deliver_host t).trans hhost, deliver_stands_of_exec (s := { s with host := es }) he⟩
  | error e =>
    refine ⟨_, step_illegal s w es e htakes hd, State.deliver_host _, ?_⟩
    exact deliver_stands_of_responding (State.raise_flight { s with host := es } .illegalCommand) rfl rfl

/-- Settles O11: how the command stands, and then what each move of the outside does while it lasts. -/
theorem commandCompletesOrHangs : Obligations.CommandCompletesOrHangs := by
  refine ⟨fun s w es htakes => step_takes_stands htakes, fun s e es hbusy h he => ⟨?_, ?_⟩,
    fun s r b es hf h => ?_, fun s p n es hf h => ?_, fun s p b es hf h => ?_,
    fun s es h => ⟨_, step_reset h, rfl, rfl, rfl, rfl, rfl, fun _ => rfl⟩⟩
  · exact decide_eq_false hbusy
  · exact step_of_not_canMove h (canMove_busy hbusy he)
  · rw [step_hostReady h]
    cases b with
    | true => exact congrArg _ (State.deliver_of_responding (s := { s with host := es, accepts := true }) hf rfl)
    | false => exact congrArg _ (State.deliver_of_not_accepts (s := { s with host := es, accepts := false }) rfl)
  · rw [step_sourceReady h]
    simp only [sourceReady, hf]
  · rw [step_hostReady h, State.deliver_of_waiting (s := { s with host := es, accepts := b }) hf]

/-! ### The host's own port -/

theorem step_hostWrite {s : State} {a : Nat} {v : Entry} {es : List HostEvent} (h : s.host = .writeEntry a v :: es)
    (hidle : s.flight = .idle) (ha : a < s.probDepth) :
    step s = .next (State.writeEntry { s with host := es } a v) :=
  (step_idle s _ es h hidle).trans (if_pos ha)

theorem step_hostRead {s : State} {a : Nat} {es : List HostEvent} (h : s.host = .readEntry a :: es)
    (hidle : s.flight = .idle) (ha : a < s.probDepth) :
    step s = .next { s with host := es, hostReads := s.hostReads ++ [s.readEntry a] } :=
  (step_idle s _ es h hidle).trans (if_pos ha)

/-- Settles O56: the read after the write reads the memory that the write has left. -/
theorem hostPortReadsWhatWasWritten : Obligations.HostPortReadsWhatWasWritten := by
  intro s a v es ha hidle
  refine ⟨fun h => ⟨_, step_hostWrite h hidle ha, ?_, fun a' ha' => ?_, rfl⟩, fun h => step_hostRead h hidle ha,
    fun h => ⟨_, _, step_hostWrite h hidle ha, step_hostRead rfl hidle ha, ?_⟩⟩
  · rw [State.readEntry_writeEntry, if_pos rfl]
  · rw [State.readEntry_writeEntry, if_neg ha']
    rfl
  · simp only [State.readEntry_writeEntry, if_true, State.writeEntry_hostReads]

/-- Settles O57: both accesses check the address first. -/
theorem hostPortStopsOutsideMemory : Obligations.HostPortStopsOutsideMemory := by
  intro s a es ha hidle
  have hout : ¬ a < s.probDepth := Nat.not_lt.mpr ha
  exact ⟨fun v h => (step_idle s _ es h hidle).trans (if_neg hout),
    fun h => (step_idle s _ es h hidle).trans (if_neg hout)⟩

end Sys2Proof.Machine
end

section
/-! PROOFS. Scope: the command word and the response word (rules R44 to R48): a word is its three fields, `decode`
compares them with those of a command, and the rows of the opcode map are such comparisons. -/

namespace Sys2Proof

open Sys2Proof.Laws

/-! ### The three fields of a word -/

theorem CmdWord.op_eq (w : CmdWord) : CmdWord.op w = w.toNat / 2 ^ 32 := by
  have := w.isLt
  rw [CmdWord.op, BitVec.extractLsb'_toNat, Nat.shiftRight_eq_div_pow]
  omega

theorem CmdWord.a_eq (w : CmdWord) : CmdWord.a w = w.toNat / 2 ^ 16 % 2 ^ 16 := by
  rw [CmdWord.a, BitVec.extractLsb'_toNat, Nat.shiftRight_eq_div_pow]

theorem CmdWord.b_eq (w : CmdWord) : CmdWord.b w = w.toNat % 2 ^ 16 := by
  rw [CmdWord.b, BitVec.extractLsb'_toNat, Nat.shiftRight_zero]

theorem CmdWord.op_lt (w : CmdWord) : CmdWord.op w < 256 := (w.extractLsb' 32 8).isLt

theorem CmdWord.a_lt (w : CmdWord) : CmdWord.a w < 65536 := (w.extractLsb' 16 16).isLt

theorem CmdWord.b_lt (w : CmdWord) : CmdWord.b w < 65536 := (w.extractLsb' 0 16).isLt

/-- The fields make up the word: no bit is outside them (rule R44). -/
theorem cmdWord_fields (w : CmdWord) : cmdWord (CmdWord.op w) (CmdWord.a w) (CmdWord.b w) = w := by
  apply BitVec.eq_of_toNat_eq
  rw [cmdWord_toNat _ _ _ (CmdWord.op_lt w), CmdWord.op_eq, CmdWord.a_eq, CmdWord.b_eq]
  omega

theorem CmdWord.op_cmdWord {op : Nat} (a b : Nat) (hop : op < 256) : CmdWord.op (cmdWord op a b) = op := by
  rw [CmdWord.op_eq, cmdWord_toNat op a b hop]
  omega

theorem CmdWord.a_cmdWord {op a : Nat} (b : Nat) (hop : op < 256) (ha : a < 65536) :
    CmdWord.a (cmdWord op a b) = a := by
  rw [CmdWord.a_eq, cmdWord_toNat op a b hop]
  omega

theorem CmdWord.b_cmdWord {op b : Nat} (a : Nat) (hop : op < 256) (hb : b < 65536) :
    CmdWord.b (cmdWord op a b) = b := by
  rw [CmdWord.b_eq, cmdWord_toNat op a b hop]
  omega

/-! ### The three fields of a command -/

/-- What the command has in field `op` (rule R47). -/
def Instr.opField : Instr → Nat
  | .init => 1
  | .decodeBit _ => 2
  | .decodeDirectBits _ => 3
  | .initBitModels _ _ => 4

/-- What the command has in field `a` (rules R46, R47). -/
def Instr.aField : Instr → Nat
  | .init => 0
  | .decodeBit _ => 0
  | .decodeDirectBits _ => 0
  | .initBitModels _ count => count

/-- What the command has in field `b` (rules R46, R47). -/
def Instr.bField : Instr → Nat
  | .init => 0
  | .decodeBit addr => addr
  | .decodeDirectBits n => n
  | .initBitModels base _ => base

/-- The word has the command's fields. -/
def Instr.HasFields (i : Instr) (w : CmdWord) : Prop :=
  CmdWord.op w = i.opField ∧ CmdWord.a w = i.aField ∧ CmdWord.b w = i.bField

theorem encode_eq_cmdWord (i : Instr) : encode i = cmdWord i.opField i.aField i.bField := by
  cases i <;> rfl

theorem Instr.opField_lt (i : Instr) : i.opField < 256 := by
  cases i <;> simp [Instr.opField]

theorem Instr.wellFormed_iff (i : Instr) : i.wellFormed = true ↔ i.aField < 65536 ∧ i.bField < 65536 := by
  cases i <;> simp [Instr.wellFormed, fitsField, Instr.aField, Instr.bField, and_comm]

/-- The word of a command that fits has the command's fields. -/
theorem encode_hasFields {i : Instr} (hi : i.wellFormed = true) : i.HasFields (encode i) := by
  obtain ⟨ha, hb⟩ := i.wellFormed_iff.mp hi
  rw [encode_eq_cmdWord]
  exact ⟨CmdWord.op_cmdWord _ _ i.opField_lt, CmdWord.a_cmdWord _ i.opField_lt ha,
    CmdWord.b_cmdWord _ i.opField_lt hb⟩

/-- A word that has the fields of a command is that command's word. -/
theorem Instr.HasFields.encode_eq {i : Instr} {w : CmdWord} (h : i.HasFields w) : encode i = w := by
  obtain ⟨hop, ha, hb⟩ := h
  rw [encode_eq_cmdWord, ← hop, ← ha, ← hb, cmdWord_fields]

/-- A command whose fields a word has fits. -/
theorem Instr.HasFields.wellFormed {i : Instr} {w : CmdWord} (h : i.HasFields w) : i.wellFormed = true := by
  obtain ⟨-, ha, hb⟩ := h
  exact i.wellFormed_iff.mpr ⟨ha ▸ CmdWord.a_lt w, hb ▸ CmdWord.b_lt w⟩

/-! ### decode -/

/-- Everything `decode` can answer, by the fields of the word (rules R47, R48). -/
theorem decode_cases (w : CmdWord) :
    (∃ i : Instr, i.HasFields w ∧ decode w = .ok i) ∨
    (CmdWord.op w ∉ [1, 2, 3, 4] ∧ decode w = .error .reservedOp) ∨
    (CmdWord.op w ∈ [1, 2, 3] ∧ CmdWord.a w ≠ 0 ∧ decode w = .error .mustBeZeroA) ∨
    (CmdWord.op w = 1 ∧ CmdWord.a w = 0 ∧ CmdWord.b w ≠ 0 ∧ decode w = .error .mustBeZeroB) := by
  unfold decode
  split_ifs with h1 ha hb h2 ha h3 ha h4
  · exact .inr (.inr (.inl ⟨by simp [h1], ha, rfl⟩))
  · exact .inr (.inr (.inr ⟨h1, not_not.mp ha, hb, rfl⟩))
  · exact .inl ⟨.init, ⟨h1, not_not.mp ha, not_not.mp hb⟩, rfl⟩
  · exact .inr (.inr (.inl ⟨by simp [h2], ha, rfl⟩))
  · exact .inl ⟨.decodeBit _, ⟨h2, not_not.mp ha, rfl⟩, rfl⟩
  · exact .inr (.inr (.inl ⟨by simp [h3], ha, rfl⟩))
  · exact .inl ⟨.decodeDirectBits _, ⟨h3, not_not.mp ha, rfl⟩, rfl⟩
  · exact .inl ⟨.initBitModels _ _, ⟨h4, rfl, rfl⟩, rfl⟩
  · exact .inr (.inl ⟨by simp [h1, h2, h3, h4], rfl⟩)

/-- A word decodes to the command whose fields it has. -/
theorem Instr.HasFields.decode_eq {i : Instr} {w : CmdWord} (h : i.HasFields w) : decode w = .ok i := by
  obtain ⟨hop, ha, hb⟩ := h
  cases i <;> simp only [Instr.opField, Instr.aField, Instr.bField] at hop ha hb <;> simp [decode, hop, ha, hb]

/-- `decode` is the comparison of fields (rule R47). -/
theorem decode_eq_ok_iff (w : CmdWord) (i : Instr) : decode w = .ok i ↔ i.HasFields w := by
  refine ⟨fun h => ?_, fun h => h.decode_eq⟩
  rcases decode_cases w with ⟨j, hj, hd⟩ | ⟨-, hd⟩ | ⟨-, -, hd⟩ | ⟨-, -, -, hd⟩ <;> cases hd.symm.trans h
  exact hj

/-- The list of rule R48, by the fields of the word. -/
theorem decode_eq_error_iff (w : CmdWord) :
    (∃ e, decode w = .error e) ↔
      (CmdWord.op w ∉ [1, 2, 3, 4] ∨ (CmdWord.op w ∈ [1, 2, 3] ∧ CmdWord.a w ≠ 0) ∨
        (CmdWord.op w = 1 ∧ CmdWord.b w ≠ 0)) := by
  rcases decode_cases w with ⟨i, ⟨hop, ha, hb⟩, hd⟩ | ⟨hop, hd⟩ | ⟨hop, ha, hd⟩ | ⟨hop, -, hb, hd⟩
  · rw [hd, hop, ha, hb]
    cases i <;> simp [Instr.opField, Instr.aField, Instr.bField]
  · exact ⟨fun _ => .inl hop, fun _ => ⟨_, hd⟩⟩
  · exact ⟨fun _ => .inr (.inl ⟨hop, ha⟩), fun _ => ⟨_, hd⟩⟩
  · exact ⟨fun _ => .inr (.inr ⟨hop, hb⟩), fun _ => ⟨_, hd⟩⟩

/-- Settles O2: the word of a well-formed command has its fields, and `decode` compares fields. -/
theorem decodeOfEncode : Obligations.DecodeOfEncode :=
  fun _ hi => (encode_hasFields hi).decode_eq

/-- Settles O3: the three fields are the whole word. -/
theorem encodeOfDecode : Obligations.EncodeOfDecode := by
  intro w i hd
  have hfields := (decode_eq_ok_iff w i).mp hd
  exact ⟨hfields.encode_eq, hfields.wellFormed⟩

/-- Settles O1: fixed words, evaluated. -/
theorem specWordsDecode : Obligations.SpecWordsDecode := by
  unfold Obligations.SpecWordsDecode
  decide

/-! ### Mask and match -/

/-- The word of a command satisfies mask and match of the command's row (rule R47). -/
theorem encode_and_mask (i : Instr) : encode i &&& i.row.mask = i.row.pattern := by
  cases i with
  | init => exact RowOfEncoding.init
  | decodeBit addr => exact RowOfEncoding.decodeBit addr
  | decodeDirectBits n => exact RowOfEncoding.decodeDirectBits n
  | initBitModels base count => exact RowOfEncoding.initBitModels base count

/-- A word selects a row when the bits under the mask, bits `n` to `n + k - 1`, are those of the pattern. -/
theorem field_of_and_mask {w mask pattern : CmdWord} (n k : Nat) (hmask : mask.toNat = (2 ^ k - 1) <<< n)
    (h : w &&& mask = pattern) : w.toNat / 2 ^ n % 2 ^ k * 2 ^ n = pattern.toNat := by
  rw [← toNat_and_mask w mask n k hmask, h]

/-- A word that satisfies mask and match of a row has the fields of a command of that row. -/
theorem hasFields_of_and_mask {w : CmdWord} {j : Instr} (h : w &&& j.row.mask = j.row.pattern) :
    ∃ i : Instr, i.HasFields w ∧ i.row = j.row := by
  have hw := w.isLt
  cases j with
  | init =>
    have hbits : w.toNat / 2 ^ 0 % 2 ^ 40 * 2 ^ 0 = 0x0100000000 := field_of_and_mask 0 40 rfl h
    refine ⟨.init, ⟨?_, ?_, ?_⟩, rfl⟩
    · rw [CmdWord.op_eq, Instr.opField]; omega
    · rw [CmdWord.a_eq, Instr.aField]; omega
    · rw [CmdWord.b_eq, Instr.bField]; omega
  | decodeBit addr =>
    have hbits : w.toNat / 2 ^ 16 % 2 ^ 24 * 2 ^ 16 = 0x0200000000 := field_of_and_mask 16 24 rfl h
    refine ⟨.decodeBit (CmdWord.b w), ⟨?_, ?_, rfl⟩, rfl⟩
    · rw [CmdWord.op_eq, Instr.opField]; omega
    · rw [CmdWord.a_eq, Instr.aField]; omega
  | decodeDirectBits n =>
    have hbits : w.toNat / 2 ^ 16 % 2 ^ 24 * 2 ^ 16 = 0x0300000000 := field_of_and_mask 16 24 rfl h
    refine ⟨.decodeDirectBits (CmdWord.b w), ⟨?_, ?_, rfl⟩, rfl⟩
    · rw [CmdWord.op_eq, Instr.opField]; omega
    · rw [CmdWord.a_eq, Instr.aField]; omega
  | initBitModels base count =>
    have hbits : w.toNat / 2 ^ 32 % 2 ^ 8 * 2 ^ 32 = 0x0400000000 := field_of_and_mask 32 8 rfl h
    refine ⟨.initBitModels (CmdWord.b w) (CmdWord.a w), ⟨?_, rfl, rfl⟩, rfl⟩
    rw [CmdWord.op_eq, Instr.opField]; omega

/-- Every row of the opcode map is the row of a command (rule R47). -/
theorem exists_row_eq_of_mem {r : OpcodeRow} (hr : r ∈ opcodeRows) : ∃ j : Instr, j.row = r := by
  simp only [opcodeRows, List.mem_cons, List.not_mem_nil, or_false] at hr
  rcases hr with rfl | rfl | rfl | rfl <;> exact ⟨_, rfl⟩

/-- A word that satisfies a row's mask and match decodes to a command of that row (rule R47). -/
theorem decode_of_and_mask {w : CmdWord} {r : OpcodeRow} (hr : r ∈ opcodeRows) (h : w &&& r.mask = r.pattern) :
    ∃ i, decode w = .ok i ∧ i.row = r := by
  obtain ⟨j, rfl⟩ := exists_row_eq_of_mem hr
  obtain ⟨i, hfields, hrow⟩ := hasFields_of_and_mask h
  exact ⟨i, hfields.decode_eq, hrow⟩

/-- Settles O4: a word that decodes is its command's word; a row's bits are fields; and since `decode` answers one
command, a word selects one row. -/
theorem decodeFollowsMaskAndMatch : Obligations.DecodeFollowsMaskAndMatch := by
  refine ⟨fun w i hd => ?_, fun w r hr h => decode_of_and_mask hr h, fun w r r' hr hr' h h' => ?_⟩
  · obtain ⟨hword, -⟩ := encodeOfDecode w i hd
    exact hword ▸ encode_and_mask i
  · obtain ⟨i, hd, rfl⟩ := decode_of_and_mask hr h
    obtain ⟨i', hd', rfl⟩ := decode_of_and_mask hr' h'
    cases hd.symm.trans hd'
    rfl

/-! ### The response word -/

/-- Settles O6: the word is `status` before `value`, and the 32 bits of `value` carry nothing into `status`. -/
theorem responseWordLayout : Obligations.ResponseWordLayout := by
  intro r
  refine ⟨BitVec.extractLsb'_append_eq_left, BitVec.extractLsb'_append_eq_right, ?_⟩
  rw [Machine.Response.word, BitVec.toNat_append, ← Nat.shiftLeft_add_eq_or_of_lt r.value.isLt, Nat.shiftLeft_eq]

end Sys2Proof
end

section
/-! PROOFS. Scope: the step on a command word (rules R43, R48), the fault it is answered with (rule R83), and what the
pseudo-commands expand to (rule R51). -/

namespace Sys2Proof.Machine

/-! ### The step on a command word -/

/-- Settles O5: rule R48's list is that of the fields (`decode_eq_error_iff`), and the step takes the fault. -/
theorem illegalWordsExactly : Obligations.IllegalWordsExactly := by
  refine ⟨decode_eq_error_iff, fun s w es htakes ⟨e, hd⟩ => ?_⟩
  rw [step_illegal s w es e htakes hd, raiseTakesFault]

/-- A word placed by `withFetchWord` is taken by the next step (rule R43; log entry 7). -/
theorem State.withFetchWord_takes (s : State) (w : Nat) :
    (s.withFetchWord 40 w).Takes (BitVec.ofNat 40 w) s.host := by
  refine ⟨?_, rfl, fun i _ => ?_⟩
  · have hword : BitVec.ofNat 40 (w % 2 ^ 40) = BitVec.ofNat 40 w := by
      apply BitVec.eq_of_toNat_eq
      simp only [BitVec.toNat_ofNat, Nat.mod_mod]
    rw [State.withFetchWord, hword]
  · unfold continuesMovedSession
    split <;> rfl

/-- Without a response pending there is no transfer (rule R43). -/
theorem State.deliver_of_not_responding {s : State} (h : ∀ r, s.flight ≠ .responding r) : State.deliver s = s := by
  rcases State.deliver_cases s with hd | ⟨r, hr, -⟩
  · exact hd
  · exact absurd hr (h r)

/-- Settles O8: the step on a word that decodes, twice, and the cases of the transfer. -/
theorem stepRunsDecodedCommand : Obligations.StepRunsDecodedCommand :=
  ⟨step_command, fun s w i hd => step_command _ _ _ i (s.withFetchWord_takes w) hd,
    fun _ _ hf => ⟨State.deliver_of_responding hf, State.deliver_of_not_accepts⟩,
    fun _ h => State.deliver_of_not_responding h⟩

/-! ### The fault a command is answered with -/

/-- The command is answered, and its response is `r`. -/
def ExecResponds (i : Instr) (s : State) (r : Response) : Prop :=
  ∃ t, exec i s = .next t ∧ t.flight = .responding r

/-- In a fair environment a command word gets one response: IllegalCommand, or the one its command ends with (rules
R43, R48, R97). -/
theorem step_answered {s : State} {w : CmdWord} {es : List HostEvent} (htakes : s.Takes w es) (hfair : s.Fair) :
    ∃ (t : State) (r : Response), step s = .next t ∧ t.responses = s.responses ++ [r] ∧
      (∀ e, decode w = .error e → r.status = .fault .illegalCommand) ∧
      ∀ i, decode w = .ok i → ExecResponds i { s with host := es } r := by
  cases hd : decode w with
  | ok i =>
    obtain ⟨t, he, hstep⟩ := step_command s w es i htakes hd
    obtain ⟨u, r, hu, hf, hresp, -, -, hacc, -⟩ := exec_responds i (s := { s with host := es }) hfair
    cases he.symm.trans hu
    refine ⟨_, r, hstep, ?_, nofun, ?_⟩
    · rw [State.deliver_of_responding hf hacc, hresp]
    · rintro _ ⟨⟩
      exact ⟨t, he, hf⟩
  | error e =>
    refine ⟨_, ⟨.fault .illegalCommand, 0#32⟩, step_illegal s w es e htakes hd, ?_, fun _ _ => rfl, nofun⟩
    rw [State.deliver_of_responding (s := State.raise { s with host := es } .illegalCommand) rfl hfair.1]
    rfl

/-- A command that ends in a fault is answered with it (rule R82). -/
theorem ExecResponds.status_of_raise {i : Instr} {s u : State} {r : Response} {f : FaultCode}
    (h : ExecResponds i s r) (he : exec i s = .next (State.raise u f)) : r.status = .fault f := by
  obtain ⟨t, ht, hf⟩ := h
  cases ht.symm.trans he
  cases hf
  rfl

/-- A part that only reads bytes, closed by an `OK`: the one fault it can be answered with is StreamExhausted (rules
R31, R78). -/
theorem OnlyReads.status_of_responding {α : Type} {k : Nat} {s : State} {p : OpResult α} {go : α → State → State}
    {r : Response} (h : OnlyReads k s p) (hgo : ∀ v t, ∃ x, (go v t).flight = .responding ⟨.ok, x⟩)
    (hr : (p.close go).flight = .responding r) : r.status = .ok ∨ r.status = .fault .streamExhausted := by
  cases p with
  | done v t =>
    obtain ⟨x, hx⟩ := hgo v t
    cases hx.symm.trans hr
    exact .inl rfl
  | raised f t =>
    obtain ⟨rfl, -⟩ := h
    cases hr
    exact .inr rfl
  | waiting t =>
    obtain ⟨q, j, -, -, rfl⟩ := h
    cases hr

/-- INIT is accepted in every session state and needs five bytes (rule R53). -/
theorem execInit_status {s : State} {r : Response} (h : ExecResponds .init s r) :
    r.status = .ok ∨ r.status = .fault .streamExhausted := by
  obtain ⟨t, ht, hf⟩ := h
  cases ht
  exact (readBytes_onlyReads initBytes 0#32 s).status_of_responding (fun _ _ => ⟨_, rfl⟩) hf

/-- A decode command checks the session first (rule R43 lines 3 and 4). -/
theorem exec_decodeCommand {i : Instr} (s : State) (hi : isDecodeCommand i = true) :
    ∃ run, exec i s = .next (State.whenReady s run) := by
  cases i with
  | init => cases hi
  | decodeBit addr => exact ⟨decodeBitReady addr s, rfl⟩
  | decodeDirectBits n => exact ⟨decodeDirectBitsReady n s, rfl⟩
  | initBitModels base count => cases hi

/-- After a fault a decode command is answered with SessionFailed (rule R75). -/
theorem execDecode_status_of_failed {i : Instr} {s : State} {r : Response} (h : ExecResponds i s r)
    (hi : isDecodeCommand i = true) (hs : s.session = .failed) : r.status = .fault .sessionFailed := by
  obtain ⟨run, he⟩ := exec_decodeCommand s hi
  exact h.status_of_raise (he.trans (by rw [State.whenReady, hs]))

/-- Before any INIT a decode command is answered with NotInitialized (rule R74). -/
theorem execDecode_status_of_uninit {i : Instr} {s : State} {r : Response} (h : ExecResponds i s r)
    (hi : isDecodeCommand i = true) (hs : s.session = .uninit) : r.status = .fault .notInitialized := by
  obtain ⟨run, he⟩ := exec_decodeCommand s hi
  exact h.status_of_raise (he.trans (by rw [State.whenReady, hs]))

/-- DECODE_BIT in a running session: the address, the entry, then the one byte it may need (rules R56, R83). -/
theorem execDecodeBit_status {s : State} {addr : Nat} {c : Coder} {r : Response}
    (h : ExecResponds (.decodeBit addr) s r) (hs : s.session = .ready c) :
    (s.probDepth ≤ addr → r.status = .fault .invalidIndex) ∧
    (addr < s.probDepth → 2048 ≤ (s.readEntry addr).toNat → r.status = .fault .probDomain) ∧
    (addr < s.probDepth → (s.readEntry addr).toNat < 2048 →
      r.status = .ok ∨ r.status = .fault .streamExhausted) := by
  have he := execDecodeBit_ready s addr c hs
  rcases decodeBitReady_cases addr s c with ⟨haddr, hrun⟩ | ⟨haddr, hentry, hrun⟩ | ⟨haddr, hentry, -⟩
  · exact ⟨fun _ => h.status_of_raise (he.trans (congrArg _ hrun)), fun h1 => by omega, fun h1 => by omega⟩
  · exact ⟨fun h1 => by omega, fun _ _ => h.status_of_raise (he.trans (congrArg _ hrun)), fun _ h2 => by omega⟩
  · refine ⟨fun h1 => by omega, fun _ h2 => by omega, fun _ _ => ?_⟩
    obtain ⟨t, ht, hf⟩ := h
    cases ht.symm.trans he
    rw [decodeBitReady_of_legal c haddr hentry] at hf
    exact (finishDecode_onlyReads 0 _ _ _).status_of_responding (fun _ _ => ⟨_, rfl⟩) hf

/-- DECODE_DIRECT_BITS in a running session: the count, then the bytes it may need (rules R62, R83). -/
theorem execDecodeDirectBits_status {s : State} {n : Nat} {c : Coder} {r : Response}
    (h : ExecResponds (.decodeDirectBits n) s r) (hs : s.session = .ready c) :
    (32 < n → r.status = .fault .invalidCount) ∧
    (n ≤ 32 → r.status = .ok ∨ r.status = .fault .streamExhausted) := by
  have he := execDecodeDirectBits_ready s n c hs
  by_cases hn : maxCount < n
  · exact ⟨fun _ => h.status_of_raise (he.trans (congrArg _ (if_pos hn))), fun h1 => absurd hn (Nat.not_lt.mpr h1)⟩
  · refine ⟨fun h1 => absurd h1 hn, fun _ => ?_⟩
    obtain ⟨t, ht, hf⟩ := h
    cases ht.symm.trans he
    rw [decodeDirectBitsReady, if_neg hn] at hf
    exact (directBits_onlyReads n c 0#32 s).status_of_responding (fun _ _ => ⟨_, rfl⟩) hf

/-- INIT_BIT_MODELS: the region (rules R70, R83). -/
theorem execInitBitModels_status {s : State} {base count : Nat} {r : Response}
    (h : ExecResponds (.initBitModels base count) s r) :
    (s.probDepth < base + count → r.status = .fault .invalidIndex) ∧
    (base + count ≤ s.probDepth → r.status = .ok) := by
  rcases runInitBitModels_cases base count s with ⟨hfits, hrun⟩ | ⟨hout, hrun⟩
  · refine ⟨fun h1 => by omega, fun _ => ?_⟩
    obtain ⟨t, ht, hf⟩ := h
    cases ht
    cases (congrArg State.flight hrun).symm.trans hf
    rfl
  · exact ⟨fun _ => h.status_of_raise (congrArg Host.Outcome.next hrun), fun h1 => by omega⟩

/-- Settles O13: the word is answered by the response of its command, and each command's checks fix the status. -/
theorem faultPriority : Obligations.FaultPriority := by
  intro s w es htakes hfair
  obtain ⟨t, r, hstep, hresponses, hillegal, hexec⟩ := step_answered htakes hfair
  exact ⟨t, r, hstep, hresponses, hillegal,
    fun i hd hi hs => execDecode_status_of_failed (hexec i hd) hi hs,
    fun i hd hi hs => execDecode_status_of_uninit (hexec i hd) hi hs,
    fun _ _ hd hs => execDecodeBit_status (s := { s with host := es }) (hexec _ hd) hs,
    fun _ _ hd hs => execDecodeDirectBits_status (hexec _ hd) hs,
    fun _ _ hd => execInitBitModels_status (s := { s with host := es }) (hexec _ hd),
    fun hd => execInit_status (hexec _ hd)⟩

/-! ### The pseudo-commands -/

/-- INIT_BIT_MODELS on a region that fits, at the head of a sequence: its entries are set and the rest of the
sequence runs (rules R51, R70). -/
theorem execAll_initBitModels {s : State} {base count : Nat} (is : List Instr) (hfits : base + count ≤ s.probDepth) :
    ∃ t, execAll (.initBitModels base count :: is) s = execAll is t ∧ t.probDepth = s.probDepth ∧
      ∀ a, t.readEntry a = if base ≤ a ∧ a < base + count then probInit else s.readEntry a := by
  have hrun : runInitBitModels base count s = State.respond (State.fillEntries s base count probInit) .ok 0#32 :=
    if_pos (decide_eq_true hfits)
  refine ⟨State.deliver (runInitBitModels base count s), rfl, ?_, fun a => ?_⟩
  · rw [hrun, State.deliver_probDepth, State.respond_probDepth, State.fillEntries_probDepth]
  · rw [← State.readEntry_fillEntries]
    apply State.readEntry_of_pm
    rw [hrun, State.deliver_pm, State.respond_pm]

/-- Settles O59: one command, or for 65536 entries, which can only stand at 0, two halves. -/
theorem pseudoInitSetsTable : Obligations.PseudoInitSetsTable := by
  intro s T hfits hdepth
  by_cases hsize : T.size ≤ 65535
  · obtain ⟨t, hrun, -, hread⟩ := execAll_initBitModels [] hfits
    exact ⟨t, by rw [expand, if_pos hsize, hrun, execAll], hread⟩
  · have hbase : T.base = 0 := by omega
    have hfull : T.size = 65536 := by omega
    obtain ⟨t, hrun, htdepth, hread⟩ := execAll_initBitModels (s := s) (base := 0) (count := 32768)
      [.initBitModels 32768 32768] (by omega)
    obtain ⟨u, hrun', -, hread'⟩ := execAll_initBitModels (s := t) (base := 32768) (count := 32768) [] (by omega)
    refine ⟨u, by rw [expand, if_neg hsize, hrun, hrun', execAll], fun a => ?_⟩
    rw [hread', hread, hbase, hfull]
    by_cases hlow : a < 32768
    · rw [if_neg (by omega), if_pos (by omega), if_pos (by omega)]
      rfl
    · by_cases hhigh : a < 65536
      · rw [if_pos (by omega), if_pos (by omega)]
        rfl
      · rw [if_neg (by omega), if_neg (by omega), if_neg (by omega)]

theorem splitCount_sum (n : Nat) : (splitCount n).sum = n := by
  have hrest : (if n % maxCount = 0 ∧ 0 < n then [] else [n % maxCount]).sum = n % maxCount := by
    split
    next h => exact h.1.symm
    next => exact List.sum_singleton
  rw [splitCount, List.sum_append, List.sum_replicate, hrest, smul_eq_mul, Nat.div_add_mod']

/-- A count of 0 is still one command (rule R51). -/
theorem splitCount_ne_nil (n : Nat) : splitCount n ≠ [] := by
  intro h
  have hsum := splitCount_sum n
  rw [h, List.sum_nil] at hsum
  subst hsum
  cases h

theorem le_of_mem_splitCount {n k : Nat} (hk : k ∈ splitCount n) : k ≤ 32 := by
  have hrest : n % maxCount < 32 := Nat.mod_lt n (by decide)
  rcases List.mem_append.mp hk with hfull | hlast
  · exact (List.eq_of_mem_replicate hfull).le
  · split at hlast
    · cases hlast
    · rw [List.mem_singleton.mp hlast]
      omega

/-- Settles O60: the counts are those of `splitCount`. -/
theorem pseudoDirectCountsSum : Obligations.PseudoDirectCountsSum :=
  fun n => ⟨splitCount n, rfl, splitCount_sum n, splitCount_ne_nil n, fun _ hk => le_of_mem_splitCount hk⟩

end Sys2Proof.Machine
end

section
/-! PROOFS. Scope: how many bytes a command that succeeds takes from the Byte Source (rules R53, R55), and the Byte
Source placed by the host (rules R85, R92, R95). -/

namespace Sys2Proof.Machine

/-! ### Commands that succeed -/

/-- INIT that succeeds has taken its five bytes (rules R53, R55). -/
theorem runInit_pos_of_answeredOk {s : State} (hok : AnsweredOk s (runInit s)) : (runInit s).pos = s.pos + 5 := by
  rcases runInit_cases s with ⟨v, -, -, h⟩ | ⟨-, h⟩ | ⟨p, j, -, -, h⟩ <;> rw [h] at hok ⊢
  · rfl
  · cases hok.1
  · cases hok.1

/-- DECODE_DIRECT_BITS that succeeds runs its loop to the end in a running session, with a legal count (rules R43, R62,
R63). -/
theorem execDecodeDirectBits_of_answeredOk {s t : State} {n : Nat} (he : exec (.decodeDirectBits n) s = .next t)
    (hok : AnsweredOk s t) :
    ∃ c r j, s.session = .ready c ∧ j ≤ n ∧ directBits n c 0#32 s = .done r (State.takeBytes s j) ∧
      t = State.complete (State.takeBytes s j) r.1 r.2 := by
  cases he
  unfold runDecodeDirectBits at hok ⊢
  rcases State.whenReady_cases s (decodeDirectBitsReady n s) with ⟨c, hc, h⟩ | ⟨-, h⟩ | ⟨-, h⟩ <;> rw [h] at hok ⊢
  · rcases decodeDirectBitsReady_cases n s c with
      ⟨-, h⟩ | ⟨-, r, j, hj, hdone, h⟩ | ⟨-, -, -, h⟩ | ⟨-, p, j, -, -, -, h⟩ <;> rw [h] at hok ⊢
    · cases hok.1
    · exact ⟨c, r, j, hc, hj, hdone, rfl⟩
    · cases hok.1
    · cases hok.1
  · cases hok.1
  · cases hok.1

/-- INIT_BIT_MODELS moves no cursor, fault or not (rule R70). -/
theorem runInitBitModels_pos (base count : Nat) (s : State) : (runInitBitModels base count s).pos = s.pos := by
  rcases runInitBitModels_cases base count s with ⟨-, h⟩ | ⟨-, h⟩ <;> rw [h] <;> rfl

/-- Settles O52: one clause for each command; for DECODE_BIT it is the frame of its one Normalize. -/
theorem byteAccounting : Obligations.ByteAccounting := by
  intro s t i he hok
  cases i with
  | init =>
    cases he
    exact runInit_pos_of_answeredOk hok
  | decodeBit addr =>
    obtain ⟨-, hge, hle, -⟩ := decodeBitFrame s t addr he
    change t.pos = s.pos ∨ t.pos = s.pos + 1
    omega
  | decodeDirectBits n =>
    obtain ⟨c, r, j, -, hj, -, rfl⟩ := execDecodeDirectBits_of_answeredOk he hok
    exact ⟨Nat.le_add_right _ _, Nat.add_le_add_left hj _⟩
  | initBitModels base count =>
    cases he
    exact runInitBitModels_pos base count s

/-! ### One byte in eight direct bits -/

/-- Halving takes one power of two off the lower bound of RANGE (rule R63). -/
theorem directHalve_range_ge_pow {m : Nat} {c : Coder} (hc : 2 ^ (m + 1) ≤ c.range.toNat) :
    2 ^ m ≤ (directHalve c).range.toNat := by
  have hhalf : (directHalve c).range.toNat = c.range.toNat / 2 := half_toNat c.range
  rw [hhalf, Nat.le_div_iff_mul_le two_pos, ← pow_succ]
  exact hc

/-- RANGE at `2^(24 + d)` or above lets `d` direct bits pass before a Normalize fires, and the byte that comes with it
lifts RANGE to `2^31`, so the next seven pass as well: a byte for every eight bits after the first `d` (rules R54,
R55, R63). -/
theorem directBits_pos_le {d k : Nat} {c : Coder} {acc : Word} {s t : State} {r : Coder × Word} (hd : d ≤ 7)
    (hc : 2 ^ (24 + d) ≤ c.range.toNat) (h : directBits k c acc s = .done r t) :
    8 * t.pos + d ≤ 8 * s.pos + k + 7 := by
  induction k generalizing d c acc s with
  | zero =>
    cases h
    omega
  | succ k ih =>
    rw [directBits_succ] at h
    cases d with
    | succ d =>
      have hhalf : 2 ^ (24 + d) ≤ (directHalve c).range.toNat := directHalve_range_ge_pow hc
      have htop : 2 ^ 24 ≤ 2 ^ (24 + d) := Nat.pow_le_pow_right two_pos (Nat.le_add_right 24 d)
      rw [runNormalize_of_ge s (htop.trans hhalf)] at h
      have hrest := ih (by omega) hhalf h
      omega
    | zero =>
      have hhalf : 2 ^ 23 ≤ (directHalve c).range.toNat := directHalve_range_ge_pow hc
      rcases runNormalize_cases (directHalve c) s with
        ⟨htop, hr⟩ | ⟨b, htop, -, -, hr⟩ | ⟨-, -, -, hr⟩ | ⟨-, -, hr⟩ <;> rw [hr] at h
      · rw [← Bool.not_eq_true, topByteZero_iff] at htop
        have hrest := ih (d := 0) (Nat.zero_le 7) (by omega) h
        omega
      · rw [topByteZero_iff] at htop
        have hlifted : 2 ^ (24 + 7) ≤ ((directHalve c).range <<< 8).toNat := by
          rw [BitVec.toNat_shiftLeft, Nat.shiftLeft_eq]
          omega
        have hrest := ih (le_refl 7) hlifted h
        rw [State.takeBytes_pos] at hrest
        omega
      · cases h
      · cases h

/-- Settles O37: `directBits_pos_le` from `TOP`. -/
theorem directBitsReadFewBytes : Obligations.DirectBitsReadFewBytes := by
  intro s t n c hs hc he hok
  obtain ⟨c', r, j, hs', -, hdone, rfl⟩ := execDecodeDirectBits_of_answeredOk he hok
  cases hs.symm.trans hs'
  have hbytes := directBits_pos_le (Nat.zero_le 7) hc hdone
  rw [State.complete_pos]
  omega

/-! ### The Byte Source placed by the host -/

/-- The host places the cursor of an idle block's Byte Source in every session state (rule R92). -/
theorem step_positionSource {s : State} {p : Nat} {es : List HostEvent} (h : s.host = .positionSource p :: es)
    (hidle : s.flight = .idle) : step s = .next { s with host := es, pos := p, sourcePlaced := true } :=
  step_idle s _ es h hidle

/-- INIT goes on with no session: it begins one (rules R53, R85). -/
theorem continuesMovedSession_init (s : State) : continuesMovedSession .init s = false := by
  unfold continuesMovedSession
  split
  · exact Bool.and_false _
  · rfl

/-- INIT with five bytes at the cursor, as a whole step: the session begins five bytes on, whether or not the host
takes the response (rules R43, R53). -/
theorem step_init {s : State} {w : CmdWord} {es : List HostEvent} {b0 b1 b2 b3 b4 : Byte} {rest : List Byte}
    (h : s.host = .command w :: es) (hidle : s.flight = .idle) (hw : decode w = .ok .init)
    (hbytes : s.stream.drop s.pos = b0 :: b1 :: b2 :: b3 :: b4 :: rest) (ha : s.Answers 5) :
    ∃ u c, step s = .next u ∧ u.session = .ready c ∧ u.err = .ok ∧ u.pos = s.pos + 5 ∧ u.sourcePlaced = false ∧
      u.host = es := by
  have htakes : s.Takes w es := ⟨h, hidle, fun i hi => by cases hw.symm.trans hi; exact continuesMovedSession_init s⟩
  obtain ⟨v, hexec, hstep⟩ := step_command s w es .init htakes hw
  cases hexec.symm.trans (initStartsSession { s with host := es } b0 b1 b2 b3 b4 rest hbytes ha)
  exact ⟨_, _, hstep, State.deliver_session _, State.deliver_err _, State.deliver_pos _, State.deliver_sourcePlaced _,
    State.deliver_host _⟩

/-- A decode command that goes on with a session whose Byte Source has been placed elsewhere is refused (rule R95;
log entry 10). -/
theorem step_of_continuesMovedSession {s : State} {w : CmdWord} {es : List HostEvent} {i : Instr}
    (h : s.host = .command w :: es) (hidle : s.flight = .idle) (hw : decode w = .ok i)
    (hmoved : continuesMovedSession i s = true) : step s = .refused .sourceMovedDuringSession := by
  have hmoved' : continuesMovedSession i { s with host := es } = true := hmoved
  simp [step_idle s _ es h hidle, hostMove, acceptCommand, hw, hmoved', delivered]

/-- Settles O58: the placing, then INIT from the state it leaves; a decode command there goes on with the session
left behind. -/
theorem sourceIsPlacedForNewSession : Obligations.SourceIsPlacedForNewSession := by
  refine ⟨fun _ _ _ h hidle => step_positionSource h hidle,
    fun s p w es b0 b1 b2 b3 b4 rest h hidle hw hbytes ha => ?_,
    fun s w es i c h hidle hw hi hs hplaced => ?_⟩
  · obtain ⟨u, c, hstep, hstarted⟩ := step_init
      (s := { s with host := .command w :: es, pos := p, sourcePlaced := true }) rfl hidle hw hbytes ha
    exact ⟨_, u, c, step_positionSource h hidle, hstep, hstarted⟩
  · refine step_of_continuesMovedSession h hidle hw ?_
    simp [continuesMovedSession, hs, hplaced, hi]

end Sys2Proof.Machine
end

section
/-! PROOFS. Scope: DECODE_BIT in a running session: its two checks (rule R56), its table with the Normalize (rule R61),
and the properties of the entry update (rule R58). -/

namespace Sys2Proof.Machine

/-! ### The checks of DECODE_BIT -/

/-- A fault in a running session (rule R82). -/
theorem raise_of_ready {s : State} {c : Coder} (f : FaultCode) (hs : s.session = .ready c) :
    State.raise s f = { s with
      err := .fault f
      session := .failed
      result := 0#32
      flight := .responding ⟨.fault f, 0#32⟩ } := by
  rw [State.raise, State.errAfter_not_failed s f (by simp [hs])]
  rfl

/-- DECODE_BIT on an address outside the memory (rule R56 (1)). -/
theorem decodeBitReady_of_outside {addr : Nat} {s : State} (c : Coder) (haddr : s.probDepth ≤ addr) :
    decodeBitReady addr s c = State.raise s .invalidIndex :=
  if_pos haddr

/-- DECODE_BIT on an entry outside the domain (rule R56 (2)). -/
theorem decodeBitReady_of_illegal {addr : Nat} {s : State} (c : Coder) (haddr : addr < s.probDepth)
    (hentry : 2048 ≤ (s.readEntry addr).toNat) : decodeBitReady addr s c = State.raise s .probDomain :=
  (if_neg (Nat.not_le.mpr haddr)).trans (if_pos hentry)

/-- DECODE_BIT that passes both checks is the write of the entry, then a Normalize (rules R56, R57). -/
theorem execDecodeBit_of_legal {s : State} {addr : Nat} {c : Coder} (hs : s.session = .ready c)
    (haddr : addr < s.probDepth) (hlegal : (s.readEntry addr).toNat < 2048) :
    exec (.decodeBit addr) s =
      .next (finishDecode 0 (adaptiveSplit c (s.readEntry addr)).coder (adaptiveSplit c (s.readEntry addr)).bit
        (s.writeEntry addr (adaptiveSplit c (s.readEntry addr)).entry)) := by
  rw [execDecodeBit_ready s addr c hs, decodeBitReady_of_legal c haddr hlegal]

/-- A Normalize with no direct bit after it succeeds, meets the end of the stream, or waits for the Byte Source (rules
R31, R54). -/
theorem finishDecode_zero_answer (c : Coder) (acc : Word) (s : State) :
    AnsweredOk s (finishDecode 0 c acc s) ∨ AnsweredFault .streamExhausted s (finishDecode 0 c acc s) ∨
      Unanswered s (finishDecode 0 c acc s) := by
  rw [finishDecode_eq]
  rcases runNormalize_cases c s with ⟨-, h⟩ | ⟨b, -, -, -, h⟩ | ⟨-, -, -, h⟩ | ⟨-, -, h⟩ <;> rw [h]
  · exact .inl ⟨rfl, rfl⟩
  · exact .inl ⟨rfl, rfl⟩
  · exact .inr (.inl ⟨rfl, rfl⟩)
  · exact .inr (.inr ⟨⟨_, rfl⟩, rfl⟩)

/-- Settles O23: a check that fails raises its fault in the state as it was; past both, the one Normalize decides how
the command ends. -/
theorem decodeBitChecksFirst : Obligations.DecodeBitChecksFirst := by
  intro s addr c hs
  have hexec := execDecodeBit_ready s addr c hs
  refine ⟨fun hout => ?_, fun haddr hentry => ?_, fun haddr hlegal =>
    ⟨_, execDecodeBit_of_legal hs haddr hlegal, finishDecode_zero_answer _ _ (s.writeEntry addr _)⟩⟩
  · rw [hexec, decodeBitReady_of_outside c hout, raise_of_ready _ hs]
  · rw [hexec, decodeBitReady_of_illegal c haddr hentry, raise_of_ready _ hs]

/-! ### The table of DECODE_BIT -/

/-- Settles O21: the row is the split; the Normalize after it fires or not by the row's RANGE. -/
theorem adaptiveBitTable : Obligations.AdaptiveBitTable := by
  intro s addr R C p hs haddr hp hlegal B bit R' C' p' hB htable
  subst hp
  have hexec := execDecodeBit_of_legal hs haddr hlegal
  rw [adaptiveSplit_of_table hB htable] at hexec
  refine ⟨fun hge => ?_, fun x hlt ha hx => ?_⟩
  · rw [hexec, finishDecode_zero_of_ge bit _ hge]
    rfl
  · rw [hexec, finishDecode_zero_of_byte (s := s.writeEntry addr p') bit hlt hx ha]
    rfl

/-! ### The entry update -/

/-- The update after a 0 bit is non-decreasing on legal entries (rule R58). -/
theorem probUp_le_probUp {p q : Entry} (hpq : p ≤ q) (hq : q.toNat < 2048) : probUp p ≤ probUp q := by
  rw [BitVec.le_def] at hpq ⊢
  rw [probUp_toNat p (by omega), probUp_toNat q hq.le]
  omega

/-- The update after a 1 bit is non-decreasing (rule R58). -/
theorem probDown_le_probDown {p q : Entry} (hpq : p ≤ q) : probDown p ≤ probDown q := by
  rw [BitVec.le_def] at hpq ⊢
  rw [probDown_toNat, probDown_toNat]
  omega

/-- A legal entry stands still after a 0 bit exactly from 2017 on (rule R58). -/
theorem probUp_eq_self_iff {p : Entry} (hp : p.toNat < 2048) : probUp p = p ↔ 2017 ≤ p.toNat := by
  rw [← BitVec.toNat_inj, probUp_toNat p hp.le]
  omega

/-- An entry stands still after a 1 bit exactly up to 31 (rule R58). -/
theorem probDown_eq_self_iff (p : Entry) : probDown p = p ↔ p.toNat ≤ 31 := by
  rw [← BitVec.toNat_inj, probDown_toNat]
  omega

/-- A legal entry does not fall after a 0 bit and stays legal, nor does it rise after a 1 bit (rule R58). -/
theorem probUp_probDown_bounds {p : Entry} (hp : p.toNat < 2048) :
    p ≤ probUp p ∧ (probUp p).toNat ≤ 2047 ∧ probDown p ≤ p := by
  rw [BitVec.le_def, BitVec.le_def, probUp_toNat p hp.le, probDown_toNat]
  omega

/-- The band of rule R58. -/
def EntryBand (p : Entry) : Prop := 31 ≤ p.toNat ∧ p.toNat ≤ 2017

/-- `PROB_INIT` lies in the band (rule R58). -/
theorem entryBand_probInit : EntryBand probInit := by
  unfold EntryBand probInit
  decide

theorem EntryBand.up {p : Entry} (h : EntryBand p) : EntryBand (probUp p) := by
  obtain ⟨hlo, hhi⟩ := h
  rw [EntryBand, probUp_toNat p (by omega)]
  omega

theorem EntryBand.down {p : Entry} (h : EntryBand p) : EntryBand (probDown p) := by
  obtain ⟨hlo, hhi⟩ := h
  rw [EntryBand, probDown_toNat]
  omega

/-- No sequence of decoded bits leads an entry out of the band (rule R58). -/
theorem EntryBand.foldl {p : Entry} (h : EntryBand p) (bits : List Bool) :
    EntryBand (bits.foldl (fun p b => if b then probDown p else probUp p) p) := by
  induction bits generalizing p with
  | nil => exact h
  | cons b bits ih =>
    cases b with
    | false => exact ih h.up
    | true => exact ih h.down

/-- An update that stays in the band and lowers a measure of every entry but `q` ends in `q` when it is repeated. -/
theorem exists_iterate_eq_of_measure {f : Entry → Entry} {q : Entry} (μ : Entry → Nat)
    (hband : ∀ p, EntryBand p → EntryBand (f p)) (hμ : ∀ p, EntryBand p → p ≠ q → μ (f p) < μ p) {p : Entry}
    (hp : EntryBand p) : ∃ k, f^[k] p = q := by
  induction p using (measure μ).wf.induction with
  | _ p ih =>
    by_cases hq : p = q
    · exact ⟨0, hq⟩
    · obtain ⟨k, hk⟩ := ih (f p) (hμ p hp hq) (hband p hp)
      exact ⟨k + 1, hk⟩

/-- Enough 0 bits raise an entry of the band to 2017 (rule R58). -/
theorem EntryBand.exists_iterate_probUp {p : Entry} (h : EntryBand p) : ∃ k, probUp^[k] p = 2017#16 := by
  refine exists_iterate_eq_of_measure (fun p => 2017 - p.toNat) (fun _ => EntryBand.up) (fun p hp hne => ?_) h
  obtain ⟨hlo, hhi⟩ := hp
  have htop : p.toNat ≠ 2017 := fun htop => hne (BitVec.eq_of_toNat_eq htop)
  rw [probUp_toNat p (by omega)]
  omega

/-- Enough 1 bits lower an entry of the band to 31 (rule R58). -/
theorem EntryBand.exists_iterate_probDown {p : Entry} (h : EntryBand p) : ∃ k, probDown^[k] p = 31#16 := by
  refine exists_iterate_eq_of_measure BitVec.toNat (fun _ => EntryBand.down) (fun p hp hne => ?_) h
  obtain ⟨hlo, hhi⟩ := hp
  have hbottom : p.toNat ≠ 31 := fun hbottom => hne (BitVec.eq_of_toNat_eq hbottom)
  rw [probDown_toNat]
  omega

/-- Settles O27: each update as a number, then the band along every sequence of them and its two ends. -/
theorem entryUpdateBand : Obligations.EntryUpdateBand := by
  refine ⟨fun p hp => ?_, fun p q hpq hq => ⟨probUp_le_probUp hpq hq, probDown_le_probDown hpq⟩,
    fun p hlo hhi => ?_, rfl, rfl, entryBand_probInit.foldl, entryBand_probInit.exists_iterate_probUp,
    entryBand_probInit.exists_iterate_probDown⟩
  · obtain ⟨hup, hlegal, hdown⟩ := probUp_probDown_bounds hp
    exact ⟨hup, hlegal, hdown, probUp_eq_self_iff hp, probDown_eq_self_iff p⟩
  · have hband : EntryBand p := ⟨hlo, hhi⟩
    obtain ⟨huplo, huphi⟩ := hband.up
    obtain ⟨hdownlo, hdownhi⟩ := hband.down
    exact ⟨huplo, huphi, hdownlo, hdownhi⟩

end Sys2Proof.Machine
end

section
/-! PROOFS. Scope: DECODE_DIRECT_BITS in a running session: its count check (rule R62), one direct bit against the
unsigned comparison (rules R64, R68), and a command that succeeds as the loop of its iterations: composition, the bits
of the value, RANGE and the bytes read, and no part of the probability memory (rules R65 to R67, R69). -/

namespace Sys2Proof.Machine

/-! ### The count -/

/-- Settles O28: the check is the first thing the command does in `READY`. -/
theorem directBitsCountCheck : Obligations.DirectBitsCountCheck := by
  intro s n c hs hn
  have hcheck : decodeDirectBitsReady n s c = State.raise s .invalidCount := if_pos hn
  rw [execDecodeDirectBits_ready s n c hs, hcheck, raise_of_ready _ hs]

/-- Inside the limit the command is its loop, then the response (rules R62, R63). -/
theorem execDecodeDirectBits_of_le {s : State} {n : Nat} {c : Coder} (hs : s.session = .ready c) (hn : n ≤ 32) :
    exec (.decodeDirectBits n) s = .next (finishBits n c 0#32 s) := by
  have hcheck : decodeDirectBitsReady n s c = finishBits n c 0#32 s := if_neg (Nat.not_lt.mpr hn)
  rw [execDecodeDirectBits_ready s n c hs, hcheck]

/-- Settles O29: the loop of no iterations keeps the registers, and the session is the one it was. -/
theorem directBitsOfZero : Obligations.DirectBitsOfZero := by
  intro s c hs
  have hsame : finishBits 0 c 0#32 s = afterOk 0#32 { s with session := .ready c } := rfl
  rw [execDecodeDirectBits_of_le hs (Nat.zero_le 32), hsame, ← hs]

/-! ### One direct bit -/

/-- Settles O31: the difference as a number modulo 2^32, in each of its ranges. -/
theorem signBitAgainstComparison : Obligations.SignBitAgainstComparison := by
  intro c r hr
  have hc := c.isLt
  rw [BitVec.lt_def, BitVec.le_def, ← BitVec.toNat_inj, ← BitVec.toNat_inj, signBit_toNat, BitVec.toNat_ofNat,
    BitVec.toNat_ofNat]
  refine ⟨fun hbelow => ?_, fun hge hlt => ?_, fun hwrap => ⟨?_, ?_⟩, fun hdouble => ?_⟩ <;> omega

/-- Settles O32: inside the invariant CODE is below the halved RANGE plus `2^31`, so `t` is the comparison, and the
formula of rule R63 is the table's row. -/
theorem directBitTable : Obligations.DirectBitTable := by
  intro s R C r bit C' hs hlt hr hrow
  have hhalf : r.toNat = R.toNat / 2 := by rw [hr, half_toNat]
  have hR := R.isLt
  rw [BitVec.lt_def] at hlt
  obtain ⟨hbelow, hupper, -, -⟩ := signBitAgainstComparison C r (by omega)
  obtain ⟨t, ht, rfl, hC'⟩ : ∃ t, t = signBit C r ∧ bit = 1#32 - t ∧ C' = C - (r &&& (t - 1#32)) := by
    rcases hrow with ⟨hcode, rfl, rfl⟩ | ⟨hcode, rfl, rfl⟩
    · exact ⟨1#32, (hbelow hcode).symm, rfl, by simp⟩
    · have hmask : (0#32 - 1#32 : Word) = BitVec.allOnes 32 := rfl
      exact ⟨0#32, (hupper hcode (by omega)).symm, rfl, by rw [hmask, BitVec.and_allOnes]⟩
  obtain ⟨hstays, hbyte, -, -⟩ := directBitFormula s R C r t C' hs hr ht hC'
  exact ⟨hstays, hbyte⟩

/-! ### A command that succeeds is its loop -/

/-- A legal count whose loop runs to its end in a running session is answered `OK` (rules R43, R63). -/
theorem execDecodeDirectBits_of_done {s u : State} {n : Nat} {c : Coder} {r : Coder × Word}
    (hs : s.session = .ready c) (hn : n ≤ 32) (hdone : directBits n c 0#32 s = .done r u) :
    exec (.decodeDirectBits n) s = .next (State.complete u r.1 r.2) ∧ AnsweredOk s (State.complete u r.1 r.2) := by
  obtain ⟨j, -, rfl⟩ : OnlyReads n s (.done r u) := hdone ▸ directBits_onlyReads n c 0#32 s
  refine ⟨?_, rfl, rfl⟩
  rw [execDecodeDirectBits_of_le hs hn, finishBits, hdone]
  rfl

/-- A count of a command that succeeds is legal (rule R62). -/
theorem count_le_of_answeredOk {s t : State} {n : Nat} (he : exec (.decodeDirectBits n) s = .next t)
    (hok : AnsweredOk s t) : n ≤ 32 := by
  obtain ⟨c, -, -, hs, -⟩ := execDecodeDirectBits_of_answeredOk he hok
  refine Nat.le_of_not_lt fun hn => ?_
  cases he.symm.trans (directBitsCountCheck s n c hs hn)
  cases hok.1

/-- The loop does not see the session, RESULT or the channels, which a response writes (rules R63, R65). -/
theorem directBits_complete {k : Nat} {c d : Coder} {acc v : Word} {s t : State} {r : Coder × Word} :
    directBits k c acc (State.complete s d v) = .done r t ↔
      ∃ u, directBits k c acc s = .done r u ∧ t = State.complete u d v := by
  have hreads := directBits_onlyReads k c acc s
  rw [directBits_frame k c acc s (State.complete s d v) rfl rfl rfl]
  cases hloop : directBits k c acc s with
  | done x u =>
    rw [hloop] at hreads
    obtain ⟨j, -, rfl⟩ := hreads
    constructor
    · rintro ⟨⟩
      exact ⟨_, rfl, rfl⟩
    · rintro ⟨_, ⟨⟩, rfl⟩
      rfl
  | raised f u => simp
  | waiting u => simp

/-! ### Composition -/

/-- `m + k` iterations run to their end exactly where `m` do and then `k` more, counted from nothing, do: the value of
the first stands above that of the others (rule R65). -/
theorem directBits_add_done {m k : Nat} {c : Coder} {s t : State} {r : Coder × Word} :
    directBits (m + k) c 0#32 s = .done r t ↔
      ∃ r₁ u v, directBits m c 0#32 s = .done r₁ u ∧ directBits k r₁.1 0#32 u = .done (r.1, v) t ∧
        r.2 = (r₁.2 <<< k) ||| v := by
  obtain ⟨hjoin, hfirst⟩ := directBits_add m k c 0#32 s
  constructor
  · intro h
    obtain ⟨r₁, u, h₁⟩ := hfirst r t h
    rw [hjoin r₁ u h₁, directBits_acc] at h
    obtain ⟨v, h₂, hv⟩ := h
    exact ⟨r₁, u, v, h₁, h₂, hv⟩
  · rintro ⟨r₁, u, v, h₁, h₂, hv⟩
    rw [hjoin r₁ u h₁, directBits_acc]
    exact ⟨v, h₂, hv⟩

/-- Settles O34: the second command's loop runs as from where the first one's ended, and `directBits_add_done` joins or
splits the two. -/
theorem directBitsCompose : Obligations.DirectBitsCompose := by
  intro s n1 n2 hn
  refine ⟨fun t1 t2 he1 hok1 he2 hok2 => ?_, fun t he hok => ?_⟩
  · obtain ⟨c, r1, j, hs, -, h1, rfl⟩ := execDecodeDirectBits_of_answeredOk he1 hok1
    obtain ⟨c', r2, i, hs', -, h2, rfl⟩ := execDecodeDirectBits_of_answeredOk he2 hok2
    cases hs'
    obtain ⟨u, h2, hu⟩ := directBits_complete.mp h2
    rw [hu]
    have hboth := directBits_add_done (r := (r2.1, (r1.2 <<< n2) ||| r2.2)) |>.mpr ⟨r1, _, r2.2, h1, h2, rfl⟩
    obtain ⟨he, hok⟩ := execDecodeDirectBits_of_done hs hn hboth
    exact ⟨_, he, hok, rfl, rfl, rfl⟩
  · obtain ⟨c, r, j, hs, -, hboth, rfl⟩ := execDecodeDirectBits_of_answeredOk he hok
    obtain ⟨r1, u, v, h1, h2, hv⟩ := directBits_add_done.mp hboth
    obtain ⟨he1, hok1⟩ := execDecodeDirectBits_of_done hs (by omega) h1
    obtain ⟨he2, hok2⟩ := execDecodeDirectBits_of_done (s := State.complete u r1.1 r1.2) rfl (by omega)
      (directBits_complete.mpr ⟨_, h2, rfl⟩)
    exact ⟨_, _, he1, hok1, he2, hok2, rfl, rfl, hv⟩

/-! ### The bits of the value -/

/-- An iteration that is passed: its Normalize, then the other iterations with its bit appended (rule R63). -/
theorem directBits_succ_done {k : Nat} {c : Coder} {acc : Word} {s t : State} {r : Coder × Word}
    (h : directBits (k + 1) c acc s = .done r t) :
    ∃ c' s', runNormalize (directHalve c) s = .done c' s' ∧
      directBits k c' ((acc <<< 1) ||| (1#32 - directSign c)) s' = .done r t := by
  rw [directBits_succ] at h
  cases hr : runNormalize (directHalve c) s with
  | done c' s' => rw [hr] at h; exact ⟨c', s', rfl, h⟩
  | raised f s' => rw [hr] at h; cases h
  | waiting s' => rw [hr] at h; cases h

/-- `t` is one bit (rule R63). -/
theorem directSign_eq_zero_or_one (c : Coder) : directSign c = 0#32 ∨ directSign c = 1#32 := by
  rw [← BitVec.toNat_inj, ← BitVec.toNat_inj, directSign, signBit_toNat, BitVec.toNat_ofNat, BitVec.toNat_ofNat]
  omega

/-- The decoded bit `1 - t` is one bit (rule R66). -/
theorem directBit_toNat_lt (c : Coder) : (1#32 - directSign c).toNat < 2 := by
  rcases directSign_eq_zero_or_one c with h | h <;> rw [h] <;> decide

/-- The bit appended last is bit 0 (rule R63). -/
theorem append_bit_and_one (acc : Word) (c : Coder) :
    ((acc <<< 1) ||| (1#32 - directSign c)) &&& 1#32 = 1#32 - directSign c := by
  have hlow : (acc <<< 1) &&& 1#32 = 0#32 := by
    rw [BitVec.and_one_eq_setWidth_ofBool_getLsbD]
    simp
  rw [BitVec.and_or_distrib_right, hlow, BitVec.zero_or]
  rcases directSign_eq_zero_or_one c with h | h <;> rw [h] <;> rfl

/-- The value of `k` iterations is below `2^k` (rule R66). -/
theorem directBits_value_lt {k : Nat} {c : Coder} {s t : State} {r : Coder × Word}
    (h : directBits k c 0#32 s = .done r t) : r.2.toNat < 2 ^ k := by
  induction k generalizing c s r with
  | zero => cases h; exact Nat.one_pos
  | succ k ih =>
    obtain ⟨c', s', -, hrest⟩ := directBits_succ_done h
    obtain ⟨v, hv, hr⟩ := (directBits_acc ..).mp hrest
    have hbit := directBit_toNat_lt c
    rw [BitVec.zero_shiftLeft, BitVec.zero_or] at hr
    rw [hr, BitVec.toNat_or, BitVec.toNat_shiftLeft, Nat.shiftLeft_eq]
    refine Nat.or_lt_two_pow ((Nat.mod_le _ _).trans_lt ?_) ((ih hv).trans (Nat.pow_lt_pow_succ one_lt_two))
    rw [pow_succ, mul_comm]
    exact Nat.mul_lt_mul_of_pos_left hbit (Nat.two_pow_pos k)

/-- Below bit `m` there is room for `m` bits. -/
theorem shiftLeft_or_ushiftRight_and_one {m : Nat} (a : Word) {v : Word} (hm : m < 32) (hv : v.toNat < 2 ^ m) :
    ((a <<< m) ||| v) >>> m &&& 1#32 = a &&& 1#32 := by
  have hlow : v[m] = false := Nat.testBit_lt_two_pow hv
  rw [BitVec.and_one_eq_setWidth_ofBool_getLsbD, BitVec.and_one_eq_setWidth_ofBool_getLsbD]
  simp [hlow, hm]

/-- The bit of the first of `m + 1` iterations is bit `m` of the value (rule R66). -/
theorem directBits_first_bit {m : Nat} {c : Coder} {acc : Word} {s t : State} {r : Coder × Word} (hm : m < 32)
    (h : directBits (m + 1) c acc s = .done r t) : r.2 >>> m &&& 1#32 = 1#32 - directSign c := by
  obtain ⟨c', s', -, hrest⟩ := directBits_succ_done h
  obtain ⟨v, hv, hr⟩ := (directBits_acc ..).mp hrest
  rw [hr, shiftLeft_or_ushiftRight_and_one _ hm (directBits_value_lt hv), append_bit_and_one]

/-- Settles O35: iteration `k` is the first of the `n - k` that follow `k` direct bits. -/
theorem directBitsValueBits : Obligations.DirectBitsValueBits := by
  intro s t n he hok
  have hn := count_le_of_answeredOk he hok
  obtain ⟨c, r, j, hs, -, hdone, rfl⟩ := execDecodeDirectBits_of_answeredOk he hok
  refine ⟨directBits_value_lt hdone, fun k hk => ?_⟩
  obtain ⟨m, rfl⟩ : ∃ m, n = k + (m + 1) := Nat.exists_eq_add_of_lt hk
  obtain ⟨hjoin, hfirst⟩ := directBits_add k (m + 1) c 0#32 s
  obtain ⟨r1, u, h1⟩ := hfirst _ _ hdone
  rw [hjoin r1 u h1] at hdone
  obtain ⟨he1, hok1⟩ := execDecodeDirectBits_of_done hs (by omega) h1
  have hplace : k + (m + 1) - 1 - k = m := by omega
  refine ⟨_, r1.1.range, r1.1.code, he1, hok1, rfl, ?_⟩
  rw [hplace]
  exact directBits_first_bit (by omega) hdone

/-! ### RANGE and the bytes read -/

/-- RANGE after one direct bit (rule R67). -/
def directRange (R : Word) : Word := if (R >>> 1).toNat < 0x01000000 then (R >>> 1) <<< 8 else R >>> 1

/-- The bytes one direct bit takes (rule R67). -/
def directByte (R : Word) : Nat := if (R >>> 1).toNat < 0x01000000 then 1 else 0

/-- The bytes `k` direct bits take (rule R67). -/
def directBytes : Nat → Word → Nat
  | 0, _ => 0
  | k + 1, R => directByte R + directBytes k (directRange R)

/-- The Normalize of an iteration fires by the halved RANGE alone (rules R54, R67). -/
theorem runNormalize_directHalve_range_pos {c c' : Coder} {s s' : State}
    (h : runNormalize (directHalve c) s = .done c' s') :
    c'.range = directRange c.range ∧ s'.pos = s.pos + directByte c.range := by
  have hhalf : (directHalve c).range = c.range >>> 1 := rfl
  unfold directRange directByte
  rcases runNormalize_cases (directHalve c) s with
    ⟨htop, hr⟩ | ⟨b, htop, -, -, hr⟩ | ⟨-, -, -, hr⟩ | ⟨-, -, hr⟩ <;> cases hr.symm.trans h
  · rw [← Bool.not_eq_true, topByteZero_iff, hhalf] at htop
    rw [if_neg htop, if_neg htop]
    exact ⟨rfl, rfl⟩
  · rw [topByteZero_iff, hhalf] at htop
    rw [if_pos htop, if_pos htop]
    exact ⟨rfl, rfl⟩

/-- RANGE after the loop, and the cursor, as functions of RANGE before it and of the number of iterations (rule R67). -/
theorem directBits_range_pos {k : Nat} {c : Coder} {acc : Word} {s t : State} {r : Coder × Word}
    (h : directBits k c acc s = .done r t) :
    r.1.range = directRange^[k] c.range ∧ t.pos = s.pos + directBytes k c.range := by
  induction k generalizing c acc s with
  | zero => cases h; exact ⟨rfl, rfl⟩
  | succ k ih =>
    obtain ⟨c', s', hnorm, hrest⟩ := directBits_succ_done h
    obtain ⟨hrange, hpos⟩ := runNormalize_directHalve_range_pos hnorm
    obtain ⟨hrange', hpos'⟩ := ih hrest
    rw [hrange', hpos', hpos, hrange, Function.iterate_succ_apply, directBytes, Nat.add_assoc]
    exact ⟨rfl, rfl⟩

/-- The same of a command that succeeds. -/
theorem execDecodeDirectBits_range_pos {s t : State} {n : Nat} {R C : Word} (hs : s.session = .ready ⟨R, C⟩)
    (he : exec (.decodeDirectBits n) s = .next t) (hok : AnsweredOk s t) :
    t.range = some (directRange^[n] R) ∧ t.pos = s.pos + directBytes n R := by
  obtain ⟨c, r, j, hs', -, hdone, rfl⟩ := execDecodeDirectBits_of_answeredOk he hok
  cases hs.symm.trans hs'
  obtain ⟨hrange, hpos⟩ := directBits_range_pos hdone
  exact ⟨congrArg some hrange, hpos⟩

/-- Settles O36: both runs are `directRange` and `directBytes` of the one RANGE; and a RANGE at `TOP` is held there. -/
theorem directBitsRangeOblivious : Obligations.DirectBitsRangeOblivious := by
  refine ⟨fun s s' t t' n R C C' hs hs' he hok he' hok' => ?_, fun s t R C hs he hok => ?_,
    fun s t n c c' hs hc he ht => ?_⟩
  · obtain ⟨hrange, hpos⟩ := execDecodeDirectBits_range_pos hs he hok
    obtain ⟨hrange', hpos'⟩ := execDecodeDirectBits_range_pos hs' he' hok'
    exact ⟨hrange.trans hrange'.symm, by omega⟩
  · exact (execDecodeDirectBits_range_pos hs he hok).1
  · have hholds : s.RangeAboveTop := fun d hd => by cases hs.symm.trans hd; exact hc
    rw [execDecodeDirectBits_ready s n c hs] at he
    cases he
    exact (decodeDirectBitsReady_holdsTop n hholds hc).1 c' ht

/-! ### No part of the probability memory -/

/-- The state with another probability memory, of another depth. -/
def State.withTable (s : State) (m : Memory) (d : Nat) : State := { s with pm := m, probDepth := d }

theorem decodeDirectBitsReady_withTable (n : Nat) (s : State) (c : Coder) (m : Memory) (d : Nat) :
    decodeDirectBitsReady n (s.withTable m d) c = (decodeDirectBitsReady n s c).withTable m d := by
  unfold decodeDirectBitsReady
  split
  · rfl
  · have hreads := directBits_onlyReads n c 0#32 s
    rw [directBits_frame n c 0#32 s (s.withTable m d) rfl rfl rfl]
    cases hloop : directBits n c 0#32 s with
    | done r t => rw [hloop] at hreads; obtain ⟨j, -, rfl⟩ := hreads; rfl
    | raised f t => rw [hloop] at hreads; obtain ⟨-, -, rfl⟩ := hreads; rfl
    | waiting t => rw [hloop] at hreads; obtain ⟨p, j, -, -, rfl⟩ := hreads; rfl

theorem runDecodeDirectBits_withTable (n : Nat) (s : State) (m : Memory) (d : Nat) :
    runDecodeDirectBits n (s.withTable m d) = (runDecodeDirectBits n s).withTable m d := by
  have hsession : (s.withTable m d).session = s.session := rfl
  unfold runDecodeDirectBits State.whenReady
  rw [hsession]
  cases hs : s.session with
  | uninit => simp only [State.raise, State.errAfter, hsession, hs]; rfl
  | ready c => exact decodeDirectBitsReady_withTable n s c m d
  | failed => simp only [State.raise, State.errAfter, hsession, hs]; rfl

/-- Settles O38: the loop sees the Byte Source and the registers alone, and the session checks see the session. -/
theorem directPathHasNoTable : Obligations.DirectPathHasNoTable := by
  intro s t n d m he
  obtain ⟨-, -, -, -, -, -, hdepth, -⟩ := exec_frame he
  cases he
  exact ⟨runDecodeDirectBits_pm n s, hdepth, congrArg _ (runDecodeDirectBits_withTable n s m d)⟩

end Sys2Proof.Machine
end

section
/-! PROOFS. Scope: INIT_BIT_MODELS (rules R70 to R72), as the one state a region that fits leads to or the fault of one
that does not; and the split of an interval on an entry it has set (rule R73). -/

namespace Sys2Proof.Machine

/-! ### The two outcomes of INIT_BIT_MODELS -/

/-- A region that fits is filled and the command answered (rule R70). -/
theorem execInitBitModels_of_fits {s : State} {base count : Nat} (hfits : base + count ≤ s.probDepth) :
    exec (.initBitModels base count) s = .next (afterOk 0#32 (State.fillEntries s base count probInit)) := by
  rcases runInitBitModels_cases base count s with ⟨-, hrun⟩ | ⟨hout, -⟩
  · exact congrArg Host.Outcome.next hrun
  · omega

/-- Settles O41: the fault is raised before the first write. -/
theorem tableInitChecksRegion : Obligations.TableInitChecksRegion := by
  intro s base count hout
  rcases runInitBitModels_cases base count s with ⟨hfits, -⟩ | ⟨-, hrun⟩
  · omega
  · exact congrArg Host.Outcome.next (hrun.trans (raise_eq_afterFault s .invalidIndex))

/-- A command that succeeds had a region that fits (rule R70). -/
theorem fits_of_answeredOk {s t : State} {base count : Nat} (he : exec (.initBitModels base count) s = .next t)
    (hok : AnsweredOk s t) : base + count ≤ s.probDepth := by
  refine Nat.le_of_not_lt fun hout => ?_
  cases he.symm.trans (tableInitChecksRegion s base count hout)
  cases hok.1

/-! ### The entries -/

/-- `MemRead` after the command (rules R33, R70). -/
theorem readEntry_afterOk_fillEntries (s : State) (base count a : Nat) :
    (afterOk 0#32 (State.fillEntries s base count probInit)).readEntry a =
      if base ≤ a ∧ a < base + count then 1024#16 else s.readEntry a :=
  State.readEntry_fillEntries s base count probInit a

/-- The covered entries read 1024, whatever the memory held (rule R71). -/
theorem readEntry_afterOk_fillEntries_of_mem (s : State) {base count a : Nat} (hbase : base ≤ a)
    (hend : a < base + count) :
    (afterOk 0#32 (State.fillEntries s base count probInit)).readEntry a = 1024#16 := by
  rw [readEntry_afterOk_fillEntries, if_pos ⟨hbase, hend⟩]

/-- Settles O40: the writes of the region are the one change beside RESULT and the response. -/
theorem tableInitSetsRegion : Obligations.TableInitSetsRegion :=
  fun s base count hfits => ⟨_, execInitBitModels_of_fits hfits, readEntry_afterOk_fillEntries s base count, rfl⟩

/-- Settles O42: the depth alone decides whether a region fits, so the command succeeds again on any memory, and a second
run sets the entries that the first has set. -/
theorem tableInitIdempotent : Obligations.TableInitIdempotent := by
  intro s t base count he hok
  have hfits := fits_of_answeredOk he hok
  cases he.symm.trans (execInitBitModels_of_fits hfits)
  refine ⟨fun a => readEntry_afterOk_fillEntries_of_mem s, fun m => ?_, ?_⟩
  · exact ⟨_, execInitBitModels_of_fits hfits, ⟨rfl, rfl⟩, fun a => readEntry_afterOk_fillEntries_of_mem _⟩
  · refine ⟨_, execInitBitModels_of_fits hfits, ⟨rfl, rfl⟩, fun a => ?_⟩
    simp only [readEntry_afterOk_fillEntries]
    split <;> rfl

/-! ### The session -/

/-- Settles O43: neither outcome looks at the session, and a fault leaves it as rule R82 does. -/
theorem tableInitLeavesSession : Obligations.TableInitLeavesSession := by
  refine fun s base count => ⟨fun hfits => ?_, fun hout => ?_⟩
  · exact ⟨_, execInitBitModels_of_fits hfits, ⟨rfl, rfl⟩, rfl, rfl, rfl,
      fun a => readEntry_afterOk_fillEntries_of_mem s⟩
  · exact ⟨_, tableInitChecksRegion s base count hout, ⟨rfl, rfl⟩, rfl, rfl⟩

/-! ### The first split on an initial entry -/

/-- The split point on an initial entry is half of RANGE, rounded down to a multiple of `2^10` (rules R57, R73). -/
theorem splitPoint_probInit_toNat (R : Word) : (splitPoint R probInit).toNat = R.toNat / 2 / 1024 * 1024 := by
  rw [splitPoint_toNat_of_legal R probInit (by decide), Nat.div_div_eq_div_mul]
  rfl

/-- Settles O44: from the RANGE that INIT sets, a CODE at the split point is still below the halved RANGE, so the adaptive
path decodes 1 there and the direct path 0. -/
theorem firstSplitIsNotTheDirectSplit : Obligations.FirstSplitIsNotTheDirectSplit :=
  ⟨rfl, splitPoint_probInit_toNat, rangeInit, splitPoint rangeInit probInit, by decide, by decide⟩

end Sys2Proof.Machine
end

section
/-! PROOFS. Scope: the session states (rules R24, R25): what a command, a resumed command and a reset do to `SESS` and
`ERR` (rules R74, R75, R82, R84), and the idle block (rule R89). -/

namespace Sys2Proof.Machine

/-! ### How an operation ends, and what it does to the session -/

/-- How an operation of the block has led from `s` to `t` (rules R31 (c), R82, R84): answered `OK`, and then `rows`
holds; answered with a fault, which has ended the session; or in flight, and then `SESS` and `ERR` stand. -/
def SessionMoves (rows : Prop) (s t : State) : Prop :=
  (∃ v, t.flight = .responding ⟨.ok, v⟩ ∧ rows) ∨
    (∃ f, t.flight = .responding ⟨.fault f, 0#32⟩ ∧ t.session = .failed ∧ t.err = s.errAfter f) ∨
    ((∃ p, t.flight = .waiting p) ∧ t.session = s.session ∧ t.err = s.err)

/-- The row of rule R84 for the fault `f`: `ERR` keeps the first one since the last good INIT or reset (rule R25). -/
def FaultRow (f : FaultCode) (s t : State) : Prop :=
  t.session = .failed ∧ (s.session ≠ .failed → t.err = .fault f) ∧ (s.session = .failed → t.err = s.err)

theorem SessionMoves.rows_of_ok {rows : Prop} {s t : State} {r : Response} (h : SessionMoves rows s t)
    (hf : t.flight = .responding r) (hr : r.status = .ok) : rows := by
  rcases h with ⟨v, -, hrows⟩ | ⟨f, hf', -⟩ | ⟨⟨p, hf'⟩, -⟩
  · exact hrows
  · cases hf.symm.trans hf'; cases hr
  · cases hf.symm.trans hf'

theorem SessionMoves.fault_row {rows : Prop} {s t : State} {r : Response} {f : FaultCode} (h : SessionMoves rows s t)
    (hf : t.flight = .responding r) (hr : r.status = .fault f) :
    FaultRow f s t := by
  rcases h with ⟨v, hf', -⟩ | ⟨g, hf', hsession, herr⟩ | ⟨⟨p, hf'⟩, -⟩
  · cases hf.symm.trans hf'; cases hr
  · cases hf.symm.trans hf'
    cases hr
    exact ⟨hsession, fun h => herr.trans (State.errAfter_not_failed s f h),
      fun h => herr.trans (State.errAfter_failed s f h)⟩
  · cases hf.symm.trans hf'

theorem SessionMoves.session_err_of_waiting {rows : Prop} {s t : State} {p : Pending} (h : SessionMoves rows s t)
    (hf : t.flight = .waiting p) : t.session = s.session ∧ t.err = s.err := by
  rcases h with ⟨v, hf', -⟩ | ⟨f, hf', -⟩ | ⟨-, hkeep⟩
  · cases hf.symm.trans hf'
  · cases hf.symm.trans hf'
  · exact hkeep

/-- No operation leads back to `UNINIT` (rule R84), where none does that is answered `OK`. -/
theorem SessionMoves.uninit_of_uninit {rows : Prop} {s t : State} (h : SessionMoves rows s t)
    (hrows : rows → t.session = .uninit → s.session = .uninit) (ht : t.session = .uninit) : s.session = .uninit := by
  rcases h with ⟨v, -, hok⟩ | ⟨f, -, hfailed, -⟩ | ⟨-, hsession, -⟩
  · exact hrows hok ht
  · cases hfailed.symm.trans ht
  · exact hsession.symm.trans ht

/-! ### The commands -/

/-- The rows of rule R84 for the command `i` that has succeeded from `s` and left `t`. -/
def OkRows (i : Instr) (s t : State) : Prop :=
  (i = .init → t.err = .ok ∧ ∃ c, t.session = .ready c) ∧
    (i ≠ .init → t.err = s.err ∧ t.sessOut = s.sessOut) ∧
    (isDecodeCommand i = true → (∃ c, s.session = .ready c) ∧ ∃ c, t.session = .ready c)

/-- The number 0 of `SESS` is `UNINIT` (rule R24). -/
theorem State.sessOut_eq_zero_iff (s : State) : s.sessOut = 0#2 ↔ s.session = .uninit := by
  unfold State.sessOut
  cases s.session <;> simp [Session.code]

theorem OkRows.uninit_of_uninit {i : Instr} {s t : State} (h : OkRows i s t) (ht : t.session = .uninit) :
    s.session = .uninit := by
  obtain ⟨hinit, hother, -⟩ := h
  by_cases hi : i = .init
  · obtain ⟨-, c, hc⟩ := hinit hi
    cases hc.symm.trans ht
  · rw [← State.sessOut_eq_zero_iff] at ht ⊢
    exact (hother hi).2.symm.trans ht

/-- The session's share of `exec_cases`. -/
theorem exec_moves {i : Instr} {s t : State} (he : exec i s = .next t) : SessionMoves (OkRows i s t) s t := by
  obtain ⟨u, j, hu, -, -, -, -, -, -, -, hends⟩ := exec_cases i s
  cases he.symm.trans hu
  rcases hends with ⟨⟨hf, -⟩, hrows⟩ | ⟨f, ⟨hf, -⟩, hsession, -, herr⟩ | ⟨⟨hf, -⟩, -, hsession, herr, -⟩
  · exact .inl ⟨_, hf, hrows⟩
  · exact .inr (.inl ⟨f, hf, hsession, herr⟩)
  · exact .inr (.inr ⟨hf, hsession, herr⟩)

/-- A command word that is taken: its command's moves, or those of IllegalCommand (rules R43, R48). -/
theorem acceptCommand_moves {w : CmdWord} {s t : State} (ha : acceptCommand w s = .next t) :
    t.responses = s.responses ∧ SessionMoves (∃ i, decode w = .ok i ∧ OkRows i s t) s t := by
  unfold acceptCommand at ha
  split at ha
  next i hd =>
    split at ha
    · cases ha
    · obtain ⟨-, -, hresponses, -⟩ := exec_frame ha
      refine ⟨hresponses, ?_⟩
      rcases exec_moves ha with ⟨v, hf, hrows⟩ | hrest
      · exact .inl ⟨v, hf, i, hd, hrows⟩
      · exact .inr hrest
  next =>
    cases ha
    exact ⟨rfl, .inr (.inl ⟨_, rfl, rfl, rfl⟩)⟩

/-! ### A command that is taken up again -/

/-- A part that only reads bytes, closed by an `OK` in a running session. -/
theorem OnlyReads.close_moves {α : Type} {k : Nat} {s : State} {r : OpResult α} {go : α → State → State}
    (h : OnlyReads k s r)
    (hgo : ∀ v t, (∃ x, (go v t).flight = .responding ⟨.ok, x⟩) ∧ ∃ c, (go v t).session = .ready c) :
    SessionMoves (∃ c, (r.close go).session = .ready c) s (r.close go) := by
  cases r with
  | done v t =>
    obtain ⟨⟨x, hf⟩, hready⟩ := hgo v t
    exact .inl ⟨x, hf, hready⟩
  | raised f t =>
    obtain ⟨-, -, rfl⟩ := h
    exact .inr (.inl ⟨f, rfl, rfl, rfl⟩)
  | waiting t =>
    obtain ⟨p, j, -, -, rfl⟩ := h
    exact .inr (.inr ⟨⟨p, rfl⟩, rfl, rfl⟩)

/-- Only INIT and the decode commands wait, so a resumed command that succeeds leaves a running session (rules R53,
R84). -/
theorem resume_moves (p : Pending) (s : State) :
    SessionMoves (∃ c, (resume p s).session = .ready c) s (resume p s) := by
  cases p with
  | init left code => exact (readBytes_onlyReads left code s).close_moves fun _ _ => ⟨⟨_, rfl⟩, _, rfl⟩
  | normalize c value left =>
    exact (finishDecode_onlyReads left c value s).close_moves fun _ _ => ⟨⟨_, rfl⟩, _, rfl⟩

/-- An answer of the Byte Source to the command that waits for it (rule R97): its moves, and from a sound state `ERR` is
0 where it succeeds. -/
theorem sourceReady_moves {s : State} {p : Pending} (n : Option Nat) (hs : s.Sound) (hp : s.flight = .waiting p) :
    (sourceReady n s).responses = s.responses ∧
      SessionMoves ((∃ c, (sourceReady n s).session = .ready c) ∧ (sourceReady n s).err = .ok) s (sourceReady n s) := by
  obtain ⟨⟨-, herr⟩, -⟩ := sourceReady_deliverable n ((State.sound_iff s).mp hs).1
  have heq : sourceReady n s = resume p { s with answers := n, flight := .idle } := by simp only [sourceReady, hp]
  rw [heq] at herr ⊢
  obtain ⟨-, -, -, -, hresponses, -⟩ := resume_cases p { s with answers := n, flight := .idle }
  refine ⟨hresponses, ?_⟩
  rcases resume_moves p { s with answers := n, flight := .idle } with ⟨v, hf, c, hc⟩ | hrest
  · exact .inl ⟨v, hf, ⟨c, hc⟩, herr.mpr (by simp [hc])⟩
  · exact .inr hrest

/-! ### The transfer of the response, and the step -/

@[simp] theorem State.deliver_sessOut (s : State) : (State.deliver s).sessOut = s.sessOut :=
  congrArg Session.code (State.deliver_session s)

/-- The response to a command is the one that was valid before its transfer (rules R43, R97). -/
theorem flight_of_respondedWith_deliver {s t : State} {r : Response} (hresponses : t.responses = s.responses)
    (h : RespondedWith r s (State.deliver t)) : t.flight = .responding r := by
  rcases State.deliver_cases t with hd | ⟨q, hq, -, hd⟩ <;> rw [hd] at h
  · rcases h with ⟨-, happend⟩ | ⟨hf, -⟩
    · exact absurd (hresponses.symm.trans happend) (by simp)
    · exact hf
  · rcases h with ⟨-, happend⟩ | ⟨hf, -⟩
    · rw [hresponses] at happend
      cases List.append_cancel_left happend
      exact hq
    · cases hf

/-- A command waits after the transfer only if it waited before it. -/
theorem flight_of_deliver_waiting {s : State} {p : Pending} (h : (State.deliver s).flight = .waiting p) :
    s.flight = .waiting p := by
  rcases State.deliver_cases s with hd | ⟨q, -, -, hd⟩ <;> rw [hd] at h
  · exact h
  · cases h

theorem delivered_eq_next {o : Host.Outcome State Fault Refusal} {t : State} (h : delivered o = .next t) :
    ∃ u, o = .next u ∧ t = State.deliver u := by
  cases o with
  | next u => cases h; exact ⟨u, rfl, rfl⟩
  | fault f => cases h
  | refused r => cases h

/-- A reset in the middle of a command ends in the reset block, whatever the command had done (rule R90). -/
theorem resetDuring_of_not_moved {w : CmdWord} (k : Nat) {s : State}
    (h : ∀ i, decode w = .ok i → continuesMovedSession i s = false) :
    ∃ u, resetDuring w k s = .next (State.resetBlock u) := by
  unfold resetDuring
  cases hd : decode w with
  | ok i => exact ⟨abandon i k s, by simp [h i hd]⟩
  | error e => exact ⟨s, rfl⟩

theorem flight_of_resetDuring {w : CmdWord} {k : Nat} {s t : State} (h : resetDuring w k s = .next t) :
    t.flight = .idle := by
  unfold resetDuring at h
  split at h
  · split at h
    · cases h
    · cases h; rfl
  · cases h; rfl

/-- While a command waits, and at the move at which it begins to, `SESS` and `ERR` stay (rules R31 (c), R84, R97). -/
theorem hostMove_session_err_of_waiting {e : HostEvent} {s t : State} {p : Pending} (hs : s.Sound)
    (hm : hostMove e s = .next t) (hp : t.flight = .waiting p) : t.session = s.session ∧ t.err = s.err := by
  cases e with
  | command w =>
    obtain ⟨u, ha, rfl⟩ := delivered_eq_next hm
    rw [State.deliver_session, State.deliver_err]
    exact (acceptCommand_moves ha).2.session_err_of_waiting (flight_of_deliver_waiting hp)
  | writeEntry a v =>
    simp only [hostMove, hostWrite] at hm
    split at hm <;> cases hm
    exact ⟨rfl, rfl⟩
  | readEntry a =>
    simp only [hostMove, hostRead] at hm
    split at hm <;> cases hm
    exact ⟨rfl, rfl⟩
  | positionSource a => cases hm; exact ⟨rfl, rfl⟩
  | sourceReady n =>
    cases hm
    rw [State.deliver_session, State.deliver_err]
    cases hf : s.flight with
    | waiting q => exact (sourceReady_moves n hs hf).2.session_err_of_waiting (flight_of_deliver_waiting hp)
    | idle => simp [sourceReady, hf]
    | responding r => simp [sourceReady, hf]
  | hostReady b => cases hm; exact ⟨State.deliver_session _, State.deliver_err _⟩
  | reset => cases hm; cases hp
  | resetDuring w k => cases (flight_of_resetDuring hm).symm.trans hp

/-- The same of a step, which makes the host's move or leaves the state as it is. -/
theorem step_session_err_of_waiting {s t : State} {e : HostEvent} {es : List HostEvent} {p : Pending} (hs : s.Sound)
    (h : s.host = e :: es) (hstep : step s = .next t) (hp : t.flight = .waiting p) :
    t.session = s.session ∧ t.err = s.err := by
  cases hmove : canMove e s with
  | false =>
    cases (step_of_not_canMove h hmove).symm.trans hstep
    exact ⟨rfl, rfl⟩
  | true =>
    have hm := (step_of_canMove h hmove).symm.trans hstep
    exact hostMove_session_err_of_waiting (s := { s with host := es }) hs hm hp

/-- The state a command word leaves before the transfer, and how it stands to the one before (rules R43, R84). -/
theorem step_command_moves {s t : State} {w : CmdWord} {es : List HostEvent} (htakes : s.Takes w es)
    (hstep : step s = .next t) :
    ∃ u, t = State.deliver u ∧ u.responses = s.responses ∧
      SessionMoves (∃ i, decode w = .ok i ∧ OkRows i s u) s u := by
  obtain ⟨h, hidle, -⟩ := htakes
  obtain ⟨u, ha, rfl⟩ := delivered_eq_next ((step_idle s _ es h hidle).symm.trans hstep)
  obtain ⟨hresponses, hmoves⟩ := acceptCommand_moves ha
  exact ⟨u, rfl, hresponses, hmoves⟩

/-- The rows of rule R84 for a command word. -/
theorem step_command_transitions {s t : State} {w : CmdWord} {es : List HostEvent} {r : Response} (hs : s.Sound)
    (htakes : s.Takes w es) (hstep : step s = .next t) (hr : RespondedWith r s t) :
    (r.status = .ok → decode w = .ok .init → (∃ c, t.session = .ready c) ∧ t.err = .ok) ∧
    (r.status = .ok → decode w ≠ .ok .init →
      t.sessOut = s.sessOut ∧ t.err = s.err ∧ (s.session ≠ .failed → t.err = .ok)) ∧
    (∀ i, r.status = .ok → decode w = .ok i → isDecodeCommand i = true →
      (∃ c, s.session = .ready c) ∧ ∃ c, t.session = .ready c) ∧
    (∀ f, r.status = .fault f → FaultRow f s t) ∧
    (t.session = .uninit → s.session = .uninit) := by
  obtain ⟨-, -, herr, -⟩ := hs
  obtain ⟨u, rfl, hresponses, hmoves⟩ := step_command_moves htakes hstep
  have hf := flight_of_respondedWith_deliver hresponses hr
  simp only [FaultRow, State.deliver_session, State.deliver_err, State.deliver_sessOut]
  refine ⟨fun hok hw => ?_, fun hok hw => ?_, fun i hok hw hi => ?_, fun f => hmoves.fault_row hf,
    hmoves.uninit_of_uninit fun ⟨_, _, hrows⟩ => hrows.uninit_of_uninit⟩
  · obtain ⟨j, hj, hinit, -⟩ := hmoves.rows_of_ok hf hok
    cases hw.symm.trans hj
    exact (hinit rfl).symm
  · obtain ⟨j, hj, -, hother, -⟩ := hmoves.rows_of_ok hf hok
    obtain ⟨hkeep, hsess⟩ := hother fun h => hw (h ▸ hj)
    exact ⟨hsess, hkeep, fun h => hkeep.trans (herr.mpr h)⟩
  · obtain ⟨j, hj, -, -, hdecode⟩ := hmoves.rows_of_ok hf hok
    cases hw.symm.trans hj
    exact hdecode hi

/-- The rows of rule R84 for a command that waited and is answered. -/
theorem step_sourceReady_transitions {s t : State} {p : Pending} {n : Option Nat} {es : List HostEvent} {r : Response}
    (hs : s.Sound) (hp : s.flight = .waiting p) (h : s.host = .sourceReady n :: es) (hstep : step s = .next t)
    (hr : RespondedWith r s t) :
    (r.status = .ok → (∃ c, t.session = .ready c) ∧ t.err = .ok) ∧
    (∀ f, r.status = .fault f → FaultRow f s t) := by
  cases (step_sourceReady h).symm.trans hstep
  obtain ⟨hresponses, hmoves⟩ := sourceReady_moves (s := { s with host := es }) n hs hp
  have hf := flight_of_respondedWith_deliver (s := s) hresponses hr
  simp only [FaultRow, State.deliver_session, State.deliver_err]
  exact ⟨hmoves.rows_of_ok hf, fun f => hmoves.fault_row hf⟩

/-- Settles O16: the resets end in the reset block; a command, and one that waited, by `SessionMoves`. -/
theorem sessionTransitions : Obligations.SessionTransitions := by
  refine fun s hs => ⟨fun es h => ⟨_, step_reset h, rfl, rfl⟩, fun w k es h hidle hmoved => ?_,
    fun _ _ _ _ htakes hstep hr => step_command_transitions hs htakes hstep hr,
    fun _ _ _ _ _ hp h hstep hr => step_sourceReady_transitions hs hp h hstep hr,
    fun _ _ _ _ h hstep hp => step_session_err_of_waiting hs h hstep hp⟩
  obtain ⟨u, hu⟩ := resetDuring_of_not_moved k (s := { s with host := es }) hmoved
  exact ⟨_, (step_idle s _ es h hidle).trans hu, rfl, rfl⟩

/-! ### A decode command without a session -/

theorem raise_of_uninit {s : State} (f : FaultCode) (hs : s.session = .uninit) :
    State.raise s f = { s with
      err := .fault f
      session := .failed
      result := 0#32
      flight := .responding ⟨.fault f, 0#32⟩ } := by
  simp [raiseTakesFault s f, hs]

/-- A fault after a fault changes the response alone (rules R82, R86). -/
theorem raise_of_failed {s : State} (f : FaultCode) (hs : s.session = .failed) :
    State.raise s f = { s with
      result := 0#32
      flight := .responding ⟨.fault f, 0#32⟩ } := by
  simp [raiseTakesFault s f, hs]

/-- Settles O15: the session check comes before anything the command does of its own. -/
theorem decodeCommandsNeedSession : Obligations.DecodeCommandsNeedSession := by
  intro s i hi
  obtain ⟨run, he⟩ := exec_decodeCommand s hi
  rw [he]
  refine ⟨fun hs => ?_, fun hs => ?_⟩
  · rw [← raise_of_uninit .notInitialized hs, State.whenReady, hs]
  · rw [← raise_of_failed .sessionFailed hs, State.whenReady, hs]

/-! ### The idle block -/

/-- Settles O9: the branch of `step` for an empty list of moves. -/
theorem idleBlockWaits : Obligations.IdleBlockWaits := by
  intro s h
  rw [step, h]

end Sys2Proof.Machine
end

section
/-! PROOFS. Scope: a reset in the middle of a command (rule R90, D25; log entry 13): how far its first `k` transfers
have taken the cursor and the entries on the way to what the whole command leaves. -/

namespace Sys2Proof.Machine

/-! ### The transfers of a command -/

/-- How many transfers with the Byte Source and the memory a command makes at most, in the order of rule R37 (log entry
13). -/
def transfers : Instr → Nat
  | .init => 5
  | .decodeBit _ => 3
  | .decodeDirectBits n => n
  | .initBitModels _ count => count

/-- How many of the first `k` transfers are byte reads, at most. -/
def bytesBy : Instr → Nat → Nat
  | .init, k => k
  | .decodeBit _, k => k - 2
  | .decodeDirectBits _, k => k
  | .initBitModels _ _, _ => 0

/-- Whether a write to the entry at `a` would be among the first `k` transfers. -/
def wroteBy : Instr → Nat → Nat → Bool
  | .init, _, _ => false
  | .decodeBit _, k, _ => decide (2 ≤ k)
  | .decodeDirectBits _, _, _ => false
  | .initBitModels base _, k, a => decide (a < base + k)

/-! ### What the whole command leaves -/

/-- DECODE_DIRECT_BITS takes at most one byte for each bit, however it ends (rules R37, R55). -/
theorem runDecodeDirectBits_pos_le (n : Nat) (s : State) : (runDecodeDirectBits n s).pos ≤ s.pos + n := by
  unfold runDecodeDirectBits
  rcases State.whenReady_cases s (decodeDirectBitsReady n s) with ⟨c, -, h⟩ | ⟨-, h⟩ | ⟨-, h⟩ <;> rw [h]
  · rcases decodeDirectBitsReady_cases n s c with
      ⟨-, h⟩ | ⟨-, r, j, hj, -, h⟩ | ⟨-, hlen, -, h⟩ | ⟨-, p, j, hj, -, -, h⟩ <;> rw [h]
    · exact Nat.le_add_right _ _
    · exact Nat.add_le_add_left hj _
    · simp only [State.raise_pos, State.takeBytes_pos]
      omega
    · exact Nat.add_le_add_left hj.le _
  · exact Nat.le_add_right _ _
  · exact Nat.le_add_right _ _

/-- Once all its transfers have happened a command takes no further byte (rules R37, R55). -/
theorem exec_pos_le_bytesBy {i : Instr} {k : Nat} {s u : State} (he : exec i s = .next u) (hk : transfers i ≤ k) :
    u.pos ≤ s.pos + bytesBy i k := by
  cases i with
  | init =>
    cases he
    obtain ⟨-, -, hle, -⟩ := resume_cases (.init initBytes 0#32) s
    exact hle.trans (Nat.add_le_add_left hk _)
  | decodeBit addr =>
    obtain ⟨-, -, hle, -⟩ := decodeBitFrame s u addr he
    exact hle.trans (Nat.add_le_add_left (Nat.le_sub_of_add_le' hk) _)
  | decodeDirectBits n =>
    cases he
    exact (runDecodeDirectBits_pos_le n s).trans (Nat.add_le_add_left hk _)
  | initBitModels base count =>
    cases he
    exact (runInitBitModels_pos base count s).le

/-- Neither INIT nor DECODE_DIRECT_BITS writes an entry, and INIT_BIT_MODELS writes none beyond its region, so an entry
with no write among all the transfers is left as it was (rules R37, R70). -/
theorem exec_readEntry_of_not_wroteBy {i : Instr} {k a : Nat} {s u : State} (he : exec i s = .next u)
    (hk : transfers i ≤ k) (ha : wroteBy i k a = false) : u.readEntry a = s.readEntry a := by
  cases i with
  | init => exact (byteReadersFrame s u _ (.inl rfl) he).1 a
  | decodeBit addr =>
    have hbefore : ¬2 ≤ k := of_decide_eq_false ha
    have hafter : 3 ≤ k := hk
    omega
  | decodeDirectBits n => exact (byteReadersFrame s u _ (.inr ⟨n, rfl⟩) he).1 a
  | initBitModels base count =>
    cases he
    rcases runInitBitModels_cases base count s with ⟨-, h⟩ | ⟨-, h⟩ <;> rw [h]
    · have hcount : count ≤ k := hk
      have hunset : ¬a < base + k := of_decide_eq_false ha
      have hbeyond : ¬(base ≤ a ∧ a < base + count) := by omega
      exact (readEntry_afterOk_fillEntries s base count a).trans (if_neg hbeyond)
    · rfl

/-! ### What an abandoned command leaves -/

/-- Before its write DECODE_BIT has left nothing (rule R37; log entry 13). -/
theorem abandon_decodeBit_of_lt (addr : Nat) {k : Nat} (s : State) (hk : k < 2) : abandon (.decodeBit addr) k s = s :=
  if_pos hk

/-- From its write on DECODE_BIT has left its entry, and after it its byte (rule R37; log entry 13). -/
theorem abandon_decodeBit_of_ge (addr : Nat) {k : Nat} (s : State) (hk : 2 ≤ k) :
    abandon (.decodeBit addr) k s =
      consumeUpTo (k - 2) { s with pm := (runDecodeBit addr s).pm } (runDecodeBit addr s) :=
  if_neg (Nat.not_lt.mpr hk)

theorem abandon_initBitModels_of_fits {base count : Nat} (k : Nat) {s : State} (hfits : base + count ≤ s.probDepth) :
    abandon (.initBitModels base count) k s = State.fillEntries s base (min k count) probInit :=
  if_pos (decide_eq_true hfits)

theorem abandon_initBitModels_of_not_fits {base count : Nat} (k : Nat) {s : State}
    (hout : s.probDepth < base + count) : abandon (.initBitModels base count) k s = s :=
  if_neg (by simpa [regionFits] using hout)

/-- Before its first transfer a command has left nothing (rule R90). -/
theorem abandon_zero (i : Instr) (s : State) : abandon i 0 s = s := by
  cases i with
  | init => simp [abandon, consumeUpTo]
  | decodeBit addr => exact abandon_decodeBit_of_lt addr s Nat.two_pos
  | decodeDirectBits n => simp [abandon, consumeUpTo]
  | initBitModels base count =>
    rcases Nat.lt_or_ge s.probDepth (base + count) with hout | hfits
    · exact abandon_initBitModels_of_not_fits 0 hout
    · rw [abandon_initBitModels_of_fits 0 hfits, Nat.zero_min]
      rfl

theorem abandon_frame (i : Instr) (k : Nat) (s : State) :
    (abandon i k s).responses = s.responses ∧ (abandon i k s).stream = s.stream ∧
      (abandon i k s).probDepth = s.probDepth := by
  cases i with
  | init => exact ⟨rfl, rfl, rfl⟩
  | decodeBit addr =>
    rcases Nat.lt_or_ge k 2 with hk | hk
    · rw [abandon_decodeBit_of_lt addr s hk]
      exact ⟨rfl, rfl, rfl⟩
    · rw [abandon_decodeBit_of_ge addr s hk]
      exact ⟨rfl, rfl, rfl⟩
  | decodeDirectBits n => exact ⟨rfl, rfl, rfl⟩
  | initBitModels base count =>
    rcases Nat.lt_or_ge s.probDepth (base + count) with hout | hfits
    · rw [abandon_initBitModels_of_not_fits k hout]
      exact ⟨rfl, rfl, rfl⟩
    · rw [abandon_initBitModels_of_fits k hfits]
      exact ⟨rfl, rfl, rfl⟩

/-- The cursor has moved over the bytes that the command had taken (rule R90). -/
theorem abandon_pos {i : Instr} (k : Nat) {s u : State} (he : exec i s = .next u) :
    (abandon i k s).pos = s.pos + min (bytesBy i k) (u.pos - s.pos) := by
  cases i with
  | init => cases he; rfl
  | decodeBit addr =>
    cases he
    rcases Nat.lt_or_ge k 2 with hk | hk
    · rw [abandon_decodeBit_of_lt addr s hk, bytesBy, Nat.sub_eq_zero_of_le hk.le, Nat.zero_min, Nat.add_zero]
    · rw [abandon_decodeBit_of_ge addr s hk]
      rfl
  | decodeDirectBits n => cases he; rfl
  | initBitModels base count =>
    rw [bytesBy, Nat.zero_min, Nat.add_zero]
    rcases Nat.lt_or_ge s.probDepth (base + count) with hout | hfits
    · rw [abandon_initBitModels_of_not_fits k hout]
    · rw [abandon_initBitModels_of_fits k hfits, State.fillEntries_pos]

/-- INIT_BIT_MODELS on a region that fits has set its first `k` entries (rules R70, R90). -/
theorem abandon_initBitModels_readEntry {base count : Nat} (k a : Nat) {s : State}
    (hfits : base + count ≤ s.probDepth) :
    (abandon (.initBitModels base count) k s).readEntry a =
      if base ≤ a ∧ a < base + min k count then 1024#16 else s.readEntry a := by
  rw [abandon_initBitModels_of_fits k hfits]
  exact State.readEntry_fillEntries s base (min k count) probInit a

/-- An entry reads as the whole command leaves it where its write has happened, and else as before (rule R90). -/
theorem abandon_readEntry {i : Instr} (k a : Nat) {s u : State} (he : exec i s = .next u) :
    (abandon i k s).readEntry a = if wroteBy i k a then u.readEntry a else s.readEntry a := by
  cases i with
  | init => rfl
  | decodeBit addr =>
    cases he
    rcases Nat.lt_or_ge k 2 with hk | hk
    · rw [abandon_decodeBit_of_lt addr s hk, if_neg (by simpa [wroteBy] using hk)]
    · rw [abandon_decodeBit_of_ge addr s hk, if_pos (by simpa [wroteBy] using hk)]
      rfl
  | decodeDirectBits n => rfl
  | initBitModels base count =>
    rcases Nat.lt_or_ge s.probDepth (base + count) with hout | hfits
    · cases he.symm.trans (tableInitChecksRegion s base count hout)
      rw [abandon_initBitModels_of_not_fits k hout]
      exact (ite_self _).symm
    · cases he.symm.trans (execInitBitModels_of_fits hfits)
      rw [abandon_initBitModels_readEntry k a hfits, readEntry_afterOk_fillEntries]
      simp only [wroteBy, decide_eq_true_eq]
      by_cases ha : a < base + k
      · rw [if_pos ha]
        exact if_congr (by omega) rfl rfl
      · rw [if_neg ha, if_neg (by omega)]

/-- With all its transfers made a command has left its whole effect on the cursor and the entries (rule R90). -/
theorem abandon_of_transfers_le {i : Instr} {k : Nat} {s u : State} (he : exec i s = .next u) (hk : transfers i ≤ k) :
    (abandon i k s).pos = u.pos ∧ ∀ a, (abandon i k s).readEntry a = u.readEntry a := by
  refine ⟨?_, fun a => ?_⟩
  · have hge := (exec_frame he).1
    have hle := exec_pos_le_bytesBy he hk
    rw [abandon_pos k he]
    omega
  · rw [abandon_readEntry k a he]
    cases ha : wroteBy i k a with
    | true => rfl
    | false => exact (exec_readEntry_of_not_wroteBy he hk ha).symm

/-! ### The reset -/

/-- A command that the machine takes to a next state goes on with no session that the host has left (rule R95). -/
theorem takes_of_step {s t : State} {w : CmdWord} {es : List HostEvent} (h : s.host = .command w :: es)
    (hidle : s.flight = .idle) (hstep : step s = .next t) : s.Takes w es := by
  refine ⟨h, hidle, fun i hd => Bool.eq_false_iff.mpr fun hmoved => ?_⟩
  cases (step_of_continuesMovedSession h hidle hd hmoved).symm.trans hstep

/-- Reset in the middle of a command: the block is reset on what the command has left (rule R90). -/
theorem step_resetDuring {s : State} {w : CmdWord} {k : Nat} {es : List HostEvent} {i : Instr}
    (h : s.host = .resetDuring w k :: es) (hidle : s.flight = .idle) (hd : decode w = .ok i)
    (hmoved : continuesMovedSession i s = false) :
    step s = .next (State.resetBlock (abandon i k { s with host := es })) := by
  have hmoved' : continuesMovedSession i { s with host := es } = false := hmoved
  simp [step_idle s _ es h hidle, hostMove, resetDuring, hd, hmoved']

/-- A word that selects no row has no transfer that a reset could come after (rules R48, R90). -/
theorem step_resetDuring_illegal {s : State} {w : CmdWord} {k : Nat} {es : List HostEvent} {e : Illegal}
    (h : s.host = .resetDuring w k :: es) (hidle : s.flight = .idle) (hd : decode w = .error e) :
    step s = .next (State.resetBlock { s with host := es }) := by
  simp [step_idle s _ es h hidle, hostMove, resetDuring, hd]

/-- Settles O55: the reset keeps the cursor and the entries as the abandoned command has left them, and the transfer of
the response keeps them as the whole command has left them. -/
theorem resetAbandonsCommand : Obligations.ResetAbandonsCommand := by
  intro s full w k es h hidle hfull
  have htakes := takes_of_step (s := { s with host := .command w :: es }) rfl hidle hfull
  cases hd : decode w with
  | error e =>
    cases (step_illegal _ w es e htakes hd).symm.trans hfull
    simp only [State.deliver_pos]
    exact ⟨_, step_resetDuring_illegal h hidle hd, rfl, rfl, rfl, rfl, rfl, rfl, le_rfl, le_rfl,
      fun _ => .inl rfl, fun _ => ⟨rfl, fun _ => rfl⟩, nofun, nofun, nofun, nofun⟩
  | ok i =>
    obtain ⟨u, he, hstep⟩ := step_command _ w es i htakes hd
    cases hstep.symm.trans hfull
    obtain ⟨-, -, hkeeps⟩ := htakes
    obtain ⟨hresponses, hstream, hdepth⟩ := abandon_frame i k { s with host := es }
    have hpos : (State.resetBlock (abandon i k { s with host := es })).pos =
        s.pos + min (bytesBy i k) (u.pos - s.pos) := abandon_pos k he
    have hentries (a : Nat) : (State.resetBlock (abandon i k { s with host := es })).readEntry a =
        if wroteBy i k a then u.readEntry a else s.readEntry a := abandon_readEntry k a he
    have hdelivered (a : Nat) : (State.deliver u).readEntry a = u.readEntry a :=
      State.readEntry_of_pm u _ (State.deliver_pm u) a
    have hge : s.pos ≤ u.pos := (exec_frame he).1
    simp only [State.deliver_pos, hdelivered]
    refine ⟨_, step_resetDuring h hidle hd (hkeeps i hd), rfl, rfl, rfl, hresponses, hstream, hdepth,
      by omega, by omega, fun a => ?_, ?_, ?_, ?_, ?_, ?_⟩
    · rw [hentries]
      exact (ite_eq_or_eq _ _ _).symm
    · rintro rfl
      rw [abandon_zero]
      exact ⟨rfl, fun _ => rfl⟩
    · rintro j ⟨⟩ (rfl | ⟨n, rfl⟩)
      · exact hpos
      · exact hpos
    · rintro addr ⟨⟩
      refine ⟨fun hk => ?_, fun hk => ⟨hpos, fun a => (hentries a).trans (if_pos (decide_eq_true hk))⟩⟩
      rw [abandon_decodeBit_of_lt addr _ hk]
      exact ⟨rfl, fun _ => rfl⟩
    · rintro base count ⟨⟩ hfits a
      exact abandon_initBitModels_readEntry k a (s := { s with host := es }) hfits
    · rintro j ⟨⟩ hk
      exact abandon_of_transfers_le he hk

end Sys2Proof.Machine
end
